-- ==== Sys2Proof/Word.lean ====
section
/-! DEFINITION. The word types of the core (spec/00_scope.md R8, R10): every value is a bit vector of a stated
width, and bit 0 is the least significant bit (R9). -/

namespace Sys2Proof

/-- A 32-bit value: register, PC and ALU width (R8, XLEN). -/
abbrev Word := BitVec 32

/-- One byte of a region's backing store. -/
abbrev Byte := BitVec 8

/-- A fetch unit: 16 bits (R8, R13). -/
abbrev Halfword := BitVec 16

/-- A general-register index. It is always a 5-bit field, so every index is in range (R21). -/
abbrev RegIdx := BitVec 5

/-- A physical address: 27 bits (R8, PADDR). -/
abbrev PAddr := BitVec 27

/-- A 6-bit opcode number: bits 15..10 of the first fetch unit (R76). -/
abbrev OpcodeNumber := BitVec 6

end Sys2Proof
end

