-- ==== Sys2Proof/Config.lean ====
section
/-! DEFINITION. The fixed values of spec/00_scope.md R8 and the type of the parameter OPCODE_MAP. The four parameters
OPCODE_MAP, IMAGE, EXTRA_REGIONS and RW_INIT are no constants here: State holds the map, and the bus that it holds
carries the others, so a statement about every state is a statement about every value of them. -/

namespace Sys2Proof

/-- RESET_VECTOR (R8, R181): the PC of a newly constructed core. -/
def Config.resetVector : Word := 0xFFFFFFF0#32

/-- The first 27-bit address of the ROM window (R8, R49). -/
def Config.romLo : Nat := 0x07000000

/-- The last 27-bit address of the ROM window (R8, R49). -/
def Config.romHi : Nat := 0x07FFFFFF

/-- The last 27-bit address (R8, R45). -/
def Config.lastAddress : Nat := 0x07FFFFFF

/-- The largest length of IMAGE: 16 MiB (R8, R51). -/
def Config.maxImageBytes : Nat := 0x01000000

/-- The length of the image that `State.reset` is constructed with.
DESIGN CHOICE (log 3), unsafe: IMAGE is a parameter (R8), and the spec gives no default. -/
def Config.resetImageBytes : Nat := Config.maxImageBytes

/-- OPCODE_MAP (R8, R85): the 6-bit opcode number of each of the seven opcodes. Its default value, with which
`State.reset` is constructed, is `defaultOpcodeMap` in Sys2Proof/Decode.lean. -/
structure OpcodeMap where
  jmp   : OpcodeNumber
  mov   : OpcodeNumber
  sub   : OpcodeNumber
  movhi : OpcodeNumber
  movea : OpcodeNumber
  stb   : OpcodeNumber
  outw  : OpcodeNumber
  deriving DecidableEq, Repr

end Sys2Proof
end

