-- ==== Sys2Proof/Syntax.lean ====
section
/-! DEFINITION. The instructions: one constructor per row of spec/opcode_table.json, its operands in the order of the
assembler syntax (spec/30_encoding.md R92), each of the width its field has (R77 to R80). -/

namespace Sys2Proof

/-- The instruction set: exactly seven opcodes (spec/00_scope.md R5). -/
inductive Instr where
  /-- `JMP [reg1]` (R115). The reg2 field is no operand (R89). -/
  | jmp (reg1 : RegIdx)
  /-- `MOV imm5, reg2` (R125). -/
  | mov (imm5 : BitVec 5) (reg2 : RegIdx)
  /-- `SUB reg1, reg2` (R126). -/
  | sub (reg1 reg2 : RegIdx)
  /-- `MOVHI imm16, reg1, reg2` (R127). -/
  | movhi (imm16 : BitVec 16) (reg1 reg2 : RegIdx)
  /-- `MOVEA imm16, reg1, reg2` (R128). -/
  | movea (imm16 : BitVec 16) (reg1 reg2 : RegIdx)
  /-- `ST.B reg2, disp16[reg1]` (R141). -/
  | stb (reg2 : RegIdx) (disp16 : BitVec 16) (reg1 : RegIdx)
  /-- `OUT.W reg2, disp16[reg1]` (R142). -/
  | outw (reg2 : RegIdx) (disp16 : BitVec 16) (reg1 : RegIdx)
  deriving DecidableEq, Repr

/-- The opcode tag that `decode` answers: a closed type of seven cases (R87). -/
inductive Opcode where
  | jmp | mov | sub | movhi | movea | stb | outw
  deriving DecidableEq, Repr

/-- The four instruction formats (R75). -/
inductive InstructionFormat where
  | formatI | formatII | formatV | formatVI
  deriving DecidableEq, Repr

/-- A DecodeError as the decoder gives it: the whole first unit (R83, spec/60_exceptions.md R151). -/
structure DecodeError where
  unit : Halfword
  deriving DecidableEq, Repr

/-- Why the decoder reads no instruction from a list of bytes. -/
inductive DecodeReject where
  /-- The first unit's bits 15..10 are the number of no opcode (R86). -/
  | unknownOpcode (e : DecodeError)
  /-- The bytes end before the instruction does. DESIGN CHOICE (log 16), safe: the step never decodes a list that
  is too short, it fetches unit by unit. -/
  | truncated
  deriving DecidableEq, Repr

end Sys2Proof
end

