-- ==== Sys2Proof/WellFormed.lean ====
section
/-! DEFINITION. What is checked of the decoder's data. An `Instr` needs no check of its own: each of its operands has
exactly the width of its field (R21, R77 to R80), so an operand that no encoding admits cannot be written. What can
be ill-formed is the parameter OPCODE_MAP: two opcodes under one number. The region table's checks (R51) are in
Sys2Proof/Machine/Bus.lean, beside the bus they belong to. -/

namespace Sys2Proof

/-- The seven opcodes (R84, R87). -/
def Opcode.all : List Opcode := [.jmp, .mov, .sub, .movhi, .movea, .stb, .outw]

/-- The opcode number that a map gives an opcode (R85). -/
def OpcodeMap.number (m : OpcodeMap) : Opcode → OpcodeNumber
  | .jmp => m.jmp
  | .mov => m.mov
  | .sub => m.sub
  | .movhi => m.movhi
  | .movea => m.movea
  | .stb => m.stb
  | .outw => m.outw

/-- An opcode map is well-formed when no two opcodes have one number, so that "the opcode number of some opcode"
(R83) names at most one opcode. The spec does not require it, and nothing refuses another map: it is a premise of
statements, and what `decodeWith` does without it is the model's choice (log 24). -/
abbrev OpcodeMap.WellFormed (m : OpcodeMap) : Prop := (Opcode.all.map m.number).Nodup

end Sys2Proof
end

