-- ==== Sys2Proof/Decode.lean ====
section
/-! DEFINITION. The decoder of spec/30_encoding.md: `decode`, `format_of`, `cycle_cost` (R83 to R88), the fields of
the formats (R77 to R80), the decoder over bytes, and after it the encoder (R94). -/

namespace Sys2Proof

/-! ### Byte order -/

/-- A fetch unit from its two bytes, little-endian: `hi` is the byte at the higher address (R54, R58). -/
def joinBytes (hi lo : Byte) : Halfword := hi ++ lo

/-- Bits 7..0 of a fetch unit, the byte at the lower address (R94). -/
def lowByte (u : Halfword) : Byte := u.extractLsb' 0 8

/-- Bits 15..8 of a fetch unit, the byte at the higher address (R94). -/
def highByte (u : Halfword) : Byte := u.extractLsb' 8 8

/-! ### The opcode map and the static tables -/

/-- The default OPCODE_MAP (R85). JMP and MOV are derived from the source's example.
PRESUMED (log 8), unsafe: the other five are the V810's numbers, which the spec gives from general knowledge (GK5). -/
def defaultOpcodeMap : OpcodeMap where
  jmp   := 0b000110#6
  mov   := 0b010000#6
  sub   := 0b000010#6
  movhi := 0b101111#6
  movea := 0b101000#6
  stb   := 0b110100#6
  outw  := 0b111111#6

/-- `format_of` (R84). -/
def formatOf : Opcode → InstructionFormat
  | .jmp => .formatI
  | .mov => .formatII
  | .sub => .formatI
  | .movhi => .formatV
  | .movea => .formatV
  | .stb => .formatVI
  | .outw => .formatVI

/-- Whether a second fetch unit follows the first (R75, R84). -/
def hasSecondUnit : InstructionFormat → Bool
  | .formatI => false
  | .formatII => false
  | .formatV => true
  | .formatVI => true

/-- `cycle_cost` (R88): JMP 3, every other opcode 1. -/
def cycleCost : Opcode → Nat
  | .jmp => 3
  | .mov => 1
  | .sub => 1
  | .movhi => 1
  | .movea => 1
  | .stb => 1
  | .outw => 1

/-- The second unit of a Format-I or Format-II instruction, which is not fetched (R91).
DESIGN CHOICE of the spec (log 14), safe: nothing reads it. -/
def placeholderUnit : Halfword := 0x0000#16

/-! ### Fields of a unit -/

/-- Bits 15..10: the opcode field (R76). -/
def opcodeField (u1 : Halfword) : OpcodeNumber := u1.extractLsb' 10 6

/-- Bits 9..5: reg2 in every format (R77 to R80). -/
def reg2Field (u1 : Halfword) : RegIdx := u1.extractLsb' 5 5

/-- Bits 4..0: reg1 in Format-I, -V and -VI (R77, R79, R80). -/
def reg1Field (u1 : Halfword) : RegIdx := u1.extractLsb' 0 5

/-- Bits 4..0: imm5 in Format-II (R78). -/
def imm5Field (u1 : Halfword) : BitVec 5 := u1.extractLsb' 0 5

/-! ### Decoding -/

/-- `decode` (R83) under an opcode map: it looks only at bits 15..10.
DESIGN CHOICE (log 24), unsafe: R83 says "some opcode op" and R85 does not say that the numbers differ. Where a map
gives several opcodes the number of the unit, the first of them in the order of `Opcode.all` (JMP, MOV, SUB, MOVHI,
MOVEA, ST.B, OUT.W) wins. Under a well-formed map no two opcodes meet, and the choice has no effect. -/
def decodeWith (m : OpcodeMap) (u1 : Halfword) : Except DecodeError Opcode :=
  match Opcode.all.find? (fun op => m.number op == opcodeField u1) with
  | some op => .ok op
  | none => .error ⟨u1⟩

/-- `decode` (R83) under the default map (R85), the one `State.reset` holds. -/
def decode (u1 : Halfword) : Except DecodeError Opcode := decodeWith defaultOpcodeMap u1

/-- The operands of an instruction, taken from its units by the format of its opcode (R77 to R80, R105).
DESIGN CHOICE of the spec (log 15), unsafe: JMP's reg2 field is ignored (R89). -/
def assemble (op : Opcode) (u1 u2 : Halfword) : Instr :=
  match op with
  | .jmp => .jmp (reg1Field u1)
  | .mov => .mov (imm5Field u1) (reg2Field u1)
  | .sub => .sub (reg1Field u1) (reg2Field u1)
  | .movhi => .movhi u2 (reg1Field u1) (reg2Field u1)
  | .movea => .movea u2 (reg1Field u1) (reg2Field u1)
  | .stb => .stb (reg2Field u1) u2 (reg1Field u1)
  | .outw => .outw (reg2Field u1) u2 (reg1Field u1)

/-- The decoder over bytes in address order, total on any list: the first instruction and the bytes after it, or the
reason there is none (R75, R81, R83). -/
def decodeBytesWith (m : OpcodeMap) : List Byte → Except DecodeReject (Instr × List Byte)
  | b0 :: b1 :: rest =>
    match decodeWith m (joinBytes b1 b0) with
    | .error e => .error (.unknownOpcode e)
    | .ok op =>
      if hasSecondUnit (formatOf op) then
        match rest with
        | b2 :: b3 :: rest' => .ok (assemble op (joinBytes b1 b0) (joinBytes b3 b2), rest')
        | _ => .error .truncated
      else .ok (assemble op (joinBytes b1 b0) placeholderUnit, rest)
  | _ => .error .truncated

/-- The decoder over bytes under the default map. -/
def decodeBytes (bytes : List Byte) : Except DecodeReject (Instr × List Byte) :=
  decodeBytesWith defaultOpcodeMap bytes

/-! ### Encoding -/

/-- The opcode of an instruction. -/
def opcodeOf : Instr → Opcode
  | .jmp _ => .jmp
  | .mov _ _ => .mov
  | .sub _ _ => .sub
  | .movhi _ _ _ => .movhi
  | .movea _ _ _ => .movea
  | .stb _ _ _ => .stb
  | .outw _ _ _ => .outw

/-- A first unit from its three fields, the opcode in bits 15..10 (R94). -/
def packUnit (opc : OpcodeNumber) (high5 low5 : BitVec 5) : Halfword := opc ++ high5 ++ low5

/-- The fetch units of an instruction under an opcode map (R94). JMP's ignored reg2 field is written as 0 (log 15). -/
def encodeWith (m : OpcodeMap) : Instr → List Halfword
  | .jmp reg1 => [packUnit m.jmp 0#5 reg1]
  | .mov imm5 reg2 => [packUnit m.mov reg2 imm5]
  | .sub reg1 reg2 => [packUnit m.sub reg2 reg1]
  | .movhi imm16 reg1 reg2 => [packUnit m.movhi reg2 reg1, imm16]
  | .movea imm16 reg1 reg2 => [packUnit m.movea reg2 reg1, imm16]
  | .stb reg2 disp16 reg1 => [packUnit m.stb reg2 reg1, disp16]
  | .outw reg2 disp16 reg1 => [packUnit m.outw reg2 reg1, disp16]

/-- The words of an instruction under the default map. -/
def encode (i : Instr) : List Halfword := encodeWith defaultOpcodeMap i

/-- Units as bytes in address order, low byte first (R58, R94). -/
def unitBytes : List Halfword → List Byte
  | [] => []
  | u :: us => lowByte u :: highByte u :: unitBytes us

/-- The bytes of an instruction as they stand in memory, under an opcode map (R94). -/
def encodeBytesWith (m : OpcodeMap) (i : Instr) : List Byte := unitBytes (encodeWith m i)

/-- The bytes of an instruction as they stand in memory (R94). -/
def encodeBytes (i : Instr) : List Byte := encodeBytesWith defaultOpcodeMap i

/-- How far the PC moves past an instruction: 2, or 4 where a second unit follows (R28, R103, R104). -/
def instrLength (i : Instr) : Word := if hasSecondUnit (formatOf (opcodeOf i)) then 4#32 else 2#32

/-! ### The opcode table's words -/

/-- The two units of an instruction whose bits are `w`, numbered as spec/opcode_table.json numbers them: bit 0 is the
least significant bit of the first unit. Bits from `nbits` up are 0. -/
def tableUnits (nbits w : Nat) : List Halfword :=
  let v := w % 2 ^ nbits
  [BitVec.ofNat 16 v, BitVec.ofNat 16 (v / 2 ^ 16)]

/-- The instruction the decoder reads from an instruction whose bits are `w`. -/
def decodeTableWord (nbits w : Nat) : Option Instr :=
  match decodeBytes (unitBytes (tableUnits nbits w)) with
  | .ok (i, _) => some i
  | .error _ => none

end Sys2Proof
end

