-- ==== Sys2Proof/Machine/State.lean ====
section
/-! DEFINITION. The state of the core and of the bus as plain data (spec/10_state.md R20, R36; spec/20_memory.md R47,
R50), the reasons a step stops, and the machine right after construction (R37). -/

namespace Sys2Proof.Machine

open Sys2Proof

/-! ### Errors -/

/-- The kinds of a BusError (spec/60_exceptions.md R150, R152). -/
inductive BusErrorKind where
  | unmappedRead | unmappedWrite | readOnlyWrite
  deriving DecidableEq, Repr

/-- A BusError as a bus operation returns it: its kind and the address the caller passed (R53 to R56). -/
structure BusError where
  kind : BusErrorKind
  addr : Word
  deriving DecidableEq, Repr

/-- The error of a failed step; `pc` is the PC at the start of the failed step (R150). -/
inductive CoreError where
  | decode (unit : Halfword) (pc : Word)
  | bus (kind : BusErrorKind) (addr : Word) (pc : Word)
  deriving DecidableEq, Repr

/-- The refusal of a region table that breaks R51 (R153). It has no parts: the spec gives it none. -/
inductive ConfigurationError where
  | inconsistentRegionTable
  deriving DecidableEq, Repr

/-! ### The bus -/

/-- Backing bytes by offset, in one canonical form: offsets strictly rising, no entry equal to what an unlisted
offset reads as (`unlistedByte`, `Memory.wf` in Sys2Proof/Machine/Ops.lean). -/
abbrev Memory := List Host.Cell

/-- A region's capability (R47). -/
inductive Capability where
  | readOnly | readWrite
  deriving DecidableEq, Repr

/-- A region: the window `lo..hi` of 27-bit addresses it answers, its size in bytes, its capability and its backing
bytes (R47). -/
structure Region where
  lo    : Nat
  hi    : Nat
  size  : Nat
  cap   : Capability
  store : Memory
  deriving DecidableEq, Repr

/-- The bus: the ordered region table, the ROM region first (R36, R50). -/
structure Bus where
  regions : List Region
  deriving DecidableEq, Repr

/-- A region of the parameter EXTRA_REGIONS with its first bytes (RW_INIT for a read-write region), as the host gives
it when it constructs the bus (R8, R51, R166). -/
structure RegionParam where
  lo    : Nat
  hi    : Nat
  size  : Nat
  cap   : Capability
  bytes : List Byte
  deriving DecidableEq, Repr

/-! ### The core -/

/-- The status word, field by field (R30). -/
structure StatusWord where
  /-- zero -/
  z   : Bool
  /-- sign -/
  s   : Bool
  /-- overflow -/
  ov  : Bool
  /-- carry -/
  cy  : Bool
  fp0 : Bool
  fp1 : Bool
  fp2 : Bool
  fp3 : Bool
  fp4 : Bool
  /-- interrupt-disable; inert (R32) -/
  id  : Bool
  /-- address-trap-enable; inert -/
  ae  : Bool
  /-- exception-pending; inert -/
  ep  : Bool
  /-- NMI-pending; inert, 1 from construction -/
  np  : Bool
  /-- interrupt-mask level; inert -/
  i   : BitVec 4
  deriving DecidableEq, Repr

/-- The whole machine: the core's record (R20), the bus it steps against, and the opcode map it decodes with. -/
structure State where
  /-- The 31 stored general registers: `gpr[k]` of the spec is entry `k - 1` (R21). -/
  gpr    : Vector Word 31
  /-- The program counter (R27). -/
  pc     : Word
  /-- The status word (R30). -/
  psw    : StatusWord
  /-- The cycle counter, which never wraps (R34). -/
  cycles : Nat
  /-- The fault latch (R35). -/
  fault  : Option CoreError
  /-- The bus (R36). -/
  bus    : Bus
  /-- The parameter OPCODE_MAP (R8, R85): fixed from construction on, no step changes it (log 4). -/
  opcodeMap : OpcodeMap
  deriving DecidableEq, Repr

/-- Why a step stops without a next state. -/
inductive Fault where
  /-- Raised by `step` alone, on a core whose fault latch is set: the step changes nothing and returns the latched
  error (R101, R110). Safe: it is what the spec says. The step that FAILS is no fault of this type: the spec gives
  the state it leaves (R109), so it answers that state, with the latch set (log 1). -/
  | halted (e : CoreError)
  deriving DecidableEq, Repr

/-- Why the model gives an instruction no meaning. -/
inductive Refusal where
  /-- An instruction without a meaning, refused by `exec` under its mnemonic. No arm answers it: every instruction
  has its meaning. Safe. -/
  | notModelled (mnemonic : String)
  deriving DecidableEq, Repr

/-! ### Construction is reset -/

/-- The status word after construction: NP is 1, every other field 0 (R37). -/
def StatusWord.reset : StatusWord where
  z := false
  s := false
  ov := false
  cy := false
  fp0 := false
  fp1 := false
  fp2 := false
  fp3 := false
  fp4 := false
  id := false
  ae := false
  ep := false
  np := true
  i := 0#4

/-- A core newly constructed with an opcode map (R8, R85) against a bus (R37, R180). Constructing a core leaves the bus
as it is (R183, R184). -/
def State.construct (m : OpcodeMap) (bus : Bus) : State where
  gpr := Vector.replicate 31 0#32
  pc := Config.resetVector
  psw := StatusWord.reset
  cycles := 0
  fault := none
  bus := bus
  opcodeMap := m

/-- The documented configuration: the ROM region only (R50). DESIGN CHOICE (log 3), unsafe: IMAGE, a parameter, is
taken as `Config.resetImageBytes` bytes with none listed, each of which reads as `unlistedByte`. -/
def Bus.reset : Bus where
  regions := [{ lo := Config.romLo, hi := Config.romHi, size := Config.resetImageBytes, cap := .readOnly, store := [] }]

/-- The machine right after reset (R180): a core constructed with the default opcode map (R85) against the documented
configuration. -/
def State.reset : State := State.construct defaultOpcodeMap Bus.reset

end Sys2Proof.Machine
end

