-- ==== Sys2Proof/Machine/Flags.lean ====
section
/-! DEFINITION. The subtract-and-flags function of the ALU (spec/42_alu.md R122), the flag update of SUB (R126), and the
32-bit snapshot of the status word (spec/10_state.md R33). -/

namespace Sys2Proof.Machine

open Sys2Proof

/-- What `sub32` returns: the result and four flags (R122). -/
structure SubResult where
  result : Word
  z      : Bool
  s      : Bool
  ov     : Bool
  cy     : Bool
  deriving DecidableEq, Repr

/-- `sub32(lhs, rhs)` (R122). -/
def sub32 (lhs rhs : Word) : SubResult :=
  let result := lhs - rhs
  { result := result
    z := result == 0#32
    s := result.getLsbD 31
    ov := (lhs ^^^ rhs) &&& ~~~(rhs ^^^ result) &&& 0x80000000#32 != 0#32
    cy := decide (lhs.toNat < rhs.toNat) }

/-- The status word with Z, S, OV and CY replaced, all four together (R31, R126). -/
def setFlags (p : StatusWord) (r : SubResult) : StatusWord :=
  { p with z := r.z, s := r.s, ov := r.ov, cy := r.cy }

/-- The bit positions of the status fields in the snapshot, as one table (R33).
PRESUMED (log 9), unsafe: the positions are the V810's, which the spec gives from general knowledge (GK4, D3). -/
def snapshotTable (p : StatusWord) : List (Nat × Bool) :=
  [(0, p.z), (1, p.s), (2, p.ov), (3, p.cy),
   (4, p.fp0), (5, p.fp1), (6, p.fp2), (7, p.fp3), (8, p.fp4),
   (12, p.id), (13, p.ae), (14, p.ep), (15, p.np),
   (16, p.i.getLsbD 0), (17, p.i.getLsbD 1), (18, p.i.getLsbD 2), (19, p.i.getLsbD 3)]

/-- The 32-bit word that has the bits of a table of positions and 0 elsewhere. -/
def packBits : List (Nat × Bool) → BitVec 32
  | [] => 0#32
  | (k, b) :: t => (BitVec.ofBool b).setWidth 32 <<< k ||| packBits t

/-- `status_snapshot()` of a status word (R33): bits without a field read as 0. -/
def snapshot (p : StatusWord) : BitVec 32 := packBits (snapshotTable p)

end Sys2Proof.Machine
end

