-- ==== Sys2Proof/Machine/Ops.lean ====
section
/-! DEFINITION. The named operations over a region's bytes, the registers, the program counter, the cycle counter and
the fault latch. -/

namespace Sys2Proof.Machine

open Sys2Proof

/-! ### Backing bytes -/

/-- What a byte that nothing lists reads as. DESIGN CHOICE (log 5), unsafe at reset: IMAGE and RW_INIT are
parameters, and a byte of theirs that is 0 is not listed. -/
def unlistedByte : Byte := 0x00#8

/-- `store[off]` (R47). -/
def Memory.read : Memory → Nat → Byte
  | [], _ => unlistedByte
  | (a, b) :: m, off => if a = off then b else Memory.read m off

/-- The entry for a byte: none where the byte is what an unlisted offset reads as. -/
def Memory.entry (off : Nat) (v : Byte) : Memory := if v = unlistedByte then [] else [(off, v)]

/-- `store[off] <- v` (R47), in canonical form. -/
def Memory.write : Memory → Nat → Byte → Memory
  | [], off, v => Memory.entry off v
  | (a, b) :: m, off, v =>
    if off < a then Memory.entry off v ++ (a, b) :: m
    else if off = a then Memory.entry off v ++ m
    else (a, b) :: Memory.write m off v

/-- The canonical form of a memory whose first offset is at least `first` and whose last is below `size`. -/
def Memory.wfFrom (first size : Nat) : Memory → Bool
  | [] => true
  | (a, b) :: m => decide (first ≤ a) && decide (a < size) && b != unlistedByte && Memory.wfFrom (a + 1) size m

/-- The canonical form of a store of `size` bytes: offsets strictly rising, all below `size`, no entry equal to what
an unlisted offset reads as. -/
def Memory.wf (size : Nat) (m : Memory) : Bool := Memory.wfFrom 0 size m

/-- A list of bytes as backing bytes, the first at offset `off`. -/
def Memory.ofBytes (off : Nat) : List Byte → Memory
  | [] => []
  | b :: bs => Memory.entry off b ++ Memory.ofBytes (off + 1) bs

/-! ### General registers: the only accessors (R24) -/

/-- `x[i]` (R22). -/
def readReg (s : State) (i : RegIdx) : Word :=
  if h : i = 0#5 then 0#32
  else s.gpr[i.toNat - 1]'(by have := i.isLt; have : i.toNat ≠ 0 := fun h' => h (BitVec.eq_of_toNat_eq (by simpa using h')); omega)

/-- `x[i] <- v` (R23): a write to register 0 is discarded. -/
def writeReg (s : State) (i : RegIdx) (v : Word) : State :=
  if i = 0#5 then s else { s with gpr := s.gpr.setIfInBounds (i.toNat - 1) v }

/-! ### Program counter, status word, cycle counter, bus -/

/-- `pc <- target` (R11). -/
def setPc (s : State) (target : Word) : State := { s with pc := target }

/-- The status word replaced. -/
def setPsw (s : State) (p : StatusWord) : State := { s with psw := p }

/-- `cycles <- cycles + n` (R11, R34). -/
def addCycles (s : State) (n : Nat) : State := { s with cycles := s.cycles + n }

/-- The bus after a store. -/
def setBus (s : State) (b : Bus) : State := { s with bus := b }

/-! ### Failing a step

The core has no trap: no register saves the pc or the status, no mode changes, there is no vector and no return
(R158, R159). What the spec describes when a step fails is the fault latch. -/

/-- `fault <- some(E)` (R100, R109): the one operation by which a step fails. Nothing else changes. -/
def latch (s : State) (e : CoreError) : State := { s with fault := some e }

/-- `latch Bus(b, A)` (R100). -/
def latchBus (s : State) (b : BusError) (a : Word) : State := latch s (.bus b.kind b.addr a)

/-- `latch Decode(d, A)` (R100). -/
def latchDecode (s : State) (d : DecodeError) (a : Word) : State := latch s (.decode d.unit a)

end Sys2Proof.Machine
end

