-- ==== Sys2Proof/Machine/Operands.lean ====
section
/-! DEFINITION. The operand forms: immediate and displacement assembly (spec/30_encoding.md R82; spec/42_alu.md R123,
R124) and the one addressing mode (spec/43_store.md R140). -/

namespace Sys2Proof.Machine

open Sys2Proof

/-- `sext_32(imm5)` (R123). -/
def sextImm5 (imm5 : BitVec 5) : Word := imm5.signExtend 32

/-- `sext_32(v)` of a 16-bit v (R124). -/
def sext16 (v : BitVec 16) : Word := v.signExtend 32

/-- `zext_32(imm16) << 16` (R124). -/
def highHalf (imm16 : BitVec 16) : Word := imm16.setWidth 32 <<< 16

/-- `add32(a, b)` (R121): modulo 2^32, no flags. -/
def add32 (a b : Word) : Word := a + b

/-- The effective address of ST.B and OUT.W (R140). -/
def effectiveAddress (s : State) (reg1 : RegIdx) (disp16 : BitVec 16) : Word :=
  add32 (readReg s reg1) (sext16 disp16)

end Sys2Proof.Machine
end

