-- ==== Sys2Proof/Machine/Alu.lean ====
section
/-! DEFINITION. The register-writing instructions (spec/42_alu.md R125 to R128). Every meaning is phase 4 of the step
(spec/40_sequencer.md R105). Sources are read before the destination is written (R106). -/

namespace Sys2Proof.Machine

open Sys2Proof

/-- MOV, the load-immediate move (R125). -/
def execMov (imm5 : BitVec 5) (reg2 : RegIdx) (s : State) : Host.Outcome State Fault Refusal :=
  .next (writeReg s reg2 (sextImm5 imm5))

/-- SUB (R126): `x[reg2] - x[reg1]` into reg2, and all four flags, whatever reg2 is. -/
def execSub (reg1 reg2 : RegIdx) (s : State) : Host.Outcome State Fault Refusal :=
  let r := sub32 (readReg s reg2) (readReg s reg1)
  .next (setPsw (writeReg s reg2 r.result) (setFlags s.psw r))

/-- MOVHI (R127). -/
def execMovhi (imm16 : BitVec 16) (reg1 reg2 : RegIdx) (s : State) : Host.Outcome State Fault Refusal :=
  .next (writeReg s reg2 (add32 (readReg s reg1) (highHalf imm16)))

/-- MOVEA (R128). -/
def execMovea (imm16 : BitVec 16) (reg1 reg2 : RegIdx) (s : State) : Host.Outcome State Fault Refusal :=
  .next (writeReg s reg2 (add32 (readReg s reg1) (sext16 imm16)))

end Sys2Proof.Machine
end

