-- ==== Sys2Proof/Machine/Control.lean ====
section
/-! DEFINITION. Control transfer (spec/41_control.md). Every meaning is phase 4 of the step (spec/40_sequencer.md R105):
it runs with `pc` at the address of the following instruction (R28). -/

namespace Sys2Proof.Machine

open Sys2Proof

/-- JMP (R115): `pc <- x[reg1]`, the target unchecked and unchanged, odd values and bits 31..27 included. -/
def execJmp (reg1 : RegIdx) (s : State) : Host.Outcome State Fault Refusal :=
  .next (setPc s (readReg s reg1))

end Sys2Proof.Machine
end

