-- ==== Sys2Proof/Machine/Bus.lean ====
section
/-! DEFINITION. The bus of spec/20_memory.md: address reduction (R46), the resolver (R48), the four bus operations
(R53 to R57), and the construction of a bus with its checks (R51, spec/60_exceptions.md R153). -/

namespace Sys2Proof.Machine

open Sys2Proof

/-! ### Resolution -/

/-- `a27(addr)` (R46): bits 31..27 are dropped. -/
def a27 (addr : Word) : PAddr := addr.setWidth 27

/-- Whether a region's window holds a 27-bit address (R48). -/
def Region.covers (r : Region) (a : PAddr) : Bool := decide (r.lo ≤ a.toNat) && decide (a.toNat ≤ r.hi)

/-- The offset of an address in a region's backing bytes (R48). -/
def Region.offset (r : Region) (a : PAddr) : Nat := (a.toNat - r.lo) &&& (r.size - 1)

/-- What an address resolves to: the region, its place in the table, and the offset into its bytes. -/
structure Place where
  index  : Nat
  region : Region
  offset : Nat
  deriving DecidableEq, Repr

/-- The first region of a table whose window holds the address, the table's first region counted as `k` (R48). -/
def resolveFrom (k : Nat) : List Region → PAddr → Option Place
  | [], _ => none
  | r :: rs, a => if r.covers a then some ⟨k, r, r.offset a⟩ else resolveFrom (k + 1) rs a

/-- `resolve(a)` (R48): `none` is `unmapped`. -/
def resolve (bus : Bus) (a : PAddr) : Option Place := resolveFrom 0 bus.regions a

/-- The byte of backing store that an address names: the region's place in the table and the offset. Two addresses
that mirror each other have one location (R63). -/
def location (bus : Bus) (addr : Word) : Option (Nat × Nat) :=
  (resolve bus (a27 addr)).map fun p => (p.index, p.offset)

/-! ### The four operations -/

/-- `read_byte(addr)` (R53). -/
def readByte (bus : Bus) (addr : Word) : Except BusError Byte :=
  match resolve bus (a27 addr) with
  | none => .error ⟨.unmappedRead, addr⟩
  | some p => .ok (p.region.store.read p.offset)

/-- The address of the halfword that holds `addr`: bit 0 cleared (R54, R60). -/
def halfwordAddr (addr : Word) : Word := addr &&& 0xFFFFFFFE#32

/-- The address of the word that `write_word` writes: bits 1..0 cleared (R56, R60).
DESIGN CHOICE of the spec (D9, log 10), unsafe. -/
def wordAddr (addr : Word) : Word := addr &&& 0xFFFFFFFC#32

/-- `read_halfword(addr)` (R54): two bytes, little-endian, bit 0 of the address cleared; an error carries the address
the caller passed (D7, log 13). -/
def readHalfword (bus : Bus) (addr : Word) : Except BusError Halfword :=
  match readByte bus (halfwordAddr addr) with
  | .error b => .error ⟨b.kind, addr⟩
  | .ok lo =>
    match readByte bus (halfwordAddr addr + 1#32) with
    | .error b => .error ⟨b.kind, addr⟩
    | .ok hi => .ok (joinBytes hi lo)

/-- The bus with the backing bytes of the region at `index` changed by `f`. -/
def updateStore (bus : Bus) (index : Nat) (f : Memory → Memory) : Bus where
  regions := bus.regions.modify index fun r => { r with store := f r.store }

/-- The write rule both write operations share (R55, R56): resolve `target`; fail where nothing is mapped or the
region is read-only, the error naming `addr`, the address the caller passed; else change the region's bytes. -/
def writeThrough (bus : Bus) (addr target : Word) (f : Nat → Memory → Memory) : Except BusError Bus :=
  match resolve bus (a27 target) with
  | none => .error ⟨.unmappedWrite, addr⟩
  | some p =>
    match p.region.cap with
    | .readOnly => .error ⟨.readOnlyWrite, addr⟩
    | .readWrite => .ok (updateStore bus p.index (f p.offset))

/-- `write_byte(addr, v)` (R55). -/
def writeByte (bus : Bus) (addr : Word) (v : Byte) : Except BusError Bus :=
  writeThrough bus addr addr fun off m => m.write off v

/-- The four bytes of a word at `off`, little-endian (R56). DESIGN CHOICE of the spec (D8, log 10), unsafe. -/
def storeWord (off : Nat) (v : Word) (m : Memory) : Memory :=
  (((m.write off (v.extractLsb' 0 8)).write (off + 1) (v.extractLsb' 8 8)).write
    (off + 2) (v.extractLsb' 16 8)).write (off + 3) (v.extractLsb' 24 8)

/-- `write_word(addr, v)` (R56). -/
def writeWord (bus : Bus) (addr : Word) (v : Word) : Except BusError Bus :=
  writeThrough bus addr (wordAddr addr) fun off m => storeWord off v m

/-! ### Well-formed buses (R51) -/

/-- A power of two. -/
def isPowerOfTwo (n : Nat) : Bool := n == 2 ^ n.log2

/-- What R51 asks of the ROM region (with R49). -/
def Region.romWf (r : Region) : Bool :=
  r.lo == Config.romLo && r.hi == Config.romHi && r.cap == .readOnly &&
    decide (1 ≤ r.size) && decide (r.size ≤ Config.maxImageBytes) && isPowerOfTwo r.size && r.store.wf r.size

/-- What R51 asks of the window and size of a region of EXTRA_REGIONS. -/
def extraShapeWf (lo hi size : Nat) : Bool :=
  decide (lo ≤ hi) && decide (hi ≤ Config.lastAddress) && isPowerOfTwo size && decide (4 ≤ size) &&
    lo % 4 == 0 && (hi + 1) % 4 == 0

/-- What R51 asks of a region of EXTRA_REGIONS. -/
def Region.extraWf (r : Region) : Bool := extraShapeWf r.lo r.hi r.size && r.store.wf r.size

/-- A table that R51 admits, with every store in its canonical form. -/
def Bus.wf (bus : Bus) : Bool :=
  match bus.regions with
  | [] => false
  | rom :: extra => rom.romWf && extra.all Region.extraWf

/-- The ROM region of an image (R49). -/
def romRegion (image : List Byte) : Region where
  lo := Config.romLo
  hi := Config.romHi
  size := image.length
  cap := .readOnly
  store := Memory.ofBytes 0 image

/-- A region of EXTRA_REGIONS with its first bytes. -/
def RegionParam.toRegion (p : RegionParam) : Region where
  lo := p.lo
  hi := p.hi
  size := p.size
  cap := p.cap
  store := Memory.ofBytes 0 p.bytes

/-- What R51 asks of an image. -/
def imageWf (image : List Byte) : Bool :=
  decide (1 ≤ image.length) && decide (image.length ≤ Config.maxImageBytes) && isPowerOfTwo image.length

/-- What R51 asks of a parameter region, its bytes among it. -/
def RegionParam.wf (p : RegionParam) : Bool := extraShapeWf p.lo p.hi p.size && p.bytes.length == p.size

/-- "construct bus" (R166): the table `[ROM] ++ EXTRA_REGIONS` (R50), or ConfigurationError where R51 is broken
(R153). -/
def constructBus (image : List Byte) (extra : List RegionParam) : Except ConfigurationError Bus :=
  if imageWf image && extra.all RegionParam.wf then
    .ok { regions := romRegion image :: extra.map RegionParam.toRegion }
  else .error .inconsistentRegionTable

/-! ### Loading (not a bus operation) -/

/-- A byte placed in the backing store from outside the machine, whatever the region's capability. It stands for the
loader that gives the image (R6, R166, log 6); no instruction uses it. An unmapped address places nothing. -/
def placeByte (bus : Bus) (addr : Word) (v : Byte) : Bus :=
  match resolve bus (a27 addr) with
  | none => bus
  | some p => updateStore bus p.index fun m => m.write p.offset v

end Sys2Proof.Machine
end

