-- ==== Sys2Proof/Machine/Store.lean ====
section
/-! DEFINITION. The stores (spec/43_store.md R140 to R142). Every meaning is phase 4 of the step (spec/40_sequencer.md
R105), which runs with `pc` at A + 4. -/

namespace Sys2Proof.Machine

open Sys2Proof

/-- The address A of the store being executed: `pc` is A + 4 in phase 4 (R28). DEDUCED (log 7), safe. -/
def storeStart (s : State) : Word := s.pc - 4#32

/-- How a store ends (R109, R141): with the new bus, or with the fault latch set and nothing else changed, the pc
left at A + 4. -/
def endStore (s : State) : Except BusError Bus → Host.Outcome State Fault Refusal
  | .ok b => .next (setBus s b)
  | .error e => .next (latchBus s e (storeStart s))

/-- ST.B (R141): the low 8 bits of `x[reg2]` to the byte at the effective address. -/
def execStb (reg2 : RegIdx) (disp16 : BitVec 16) (reg1 : RegIdx) (s : State) : Host.Outcome State Fault Refusal :=
  endStore s (writeByte s.bus (effectiveAddress s reg1 disp16) ((readReg s reg2).extractLsb' 0 8))

/-- OUT.W (R142): `x[reg2]` to the word that holds the effective address. -/
def execOutw (reg2 : RegIdx) (disp16 : BitVec 16) (reg1 : RegIdx) (s : State) : Host.Outcome State Fault Refusal :=
  endStore s (writeWord s.bus (effectiveAddress s reg1 disp16) (readReg s reg2))

end Sys2Proof.Machine
end

