-- ==== Sys2Proof/Machine/Dispatch.lean ====
section
/-! DEFINITION. Phase 4 of the step: `execute` dispatches over the seven opcodes with no default arm
(spec/40_sequencer.md R105, spec/30_encoding.md R87). -/

namespace Sys2Proof.Machine

open Sys2Proof

/-- `execute(op, u1, u2)` (R105) on the instruction with its operands, at the state whose pc has been advanced. -/
def exec (i : Instr) (s : State) : Host.Outcome State Fault Refusal :=
  match i with
  | .jmp reg1 => Sys2Proof.Machine.execJmp reg1 s
  | .mov imm5 reg2 => Sys2Proof.Machine.execMov imm5 reg2 s
  | .sub reg1 reg2 => Sys2Proof.Machine.execSub reg1 reg2 s
  | .movhi imm16 reg1 reg2 => Sys2Proof.Machine.execMovhi imm16 reg1 reg2 s
  | .movea imm16 reg1 reg2 => Sys2Proof.Machine.execMovea imm16 reg1 reg2 s
  | .stb reg2 disp16 reg1 => Sys2Proof.Machine.execStb reg2 disp16 reg1 s
  | .outw reg2 disp16 reg1 => Sys2Proof.Machine.execOutw reg2 disp16 reg1 s

end Sys2Proof.Machine
end

