-- ==== Sys2Proof/Machine/Sequencer.lean ====
section
/-! DEFINITION. Phases 1 to 3 and phase 5 of the step (spec/40_sequencer.md R100 to R107), which
Sys2Proof/Machine/Step.lean puts around `exec`; and the placing of an instruction where the step fetches. -/

namespace Sys2Proof.Machine

open Sys2Proof

/-- Phases 1 to 3 (R102 to R104): the instruction at the PC and the state whose PC stands behind it; or, where a
fetch or the decoding fails, the state that R109 says the failed step leaves. The PC is advanced only once decode has
succeeded (C1, D5, log 11). -/
def fetchInstr (s : State) : Except State (Instr × State) :=
  let a := s.pc
  match readHalfword s.bus a with
  | .error b => .error (latchBus s b a)
  | .ok u1 =>
    match decodeWith s.opcodeMap u1 with
    | .error d => .error (latchDecode s d a)
    | .ok op =>
      let s1 := setPc s (a + 2#32)
      if hasSecondUnit (formatOf op) then
        match readHalfword s.bus (a + 2#32) with
        | .error b => .error (latchBus s1 b a)
        | .ok u2 => .ok (assemble op u1 u2, setPc s1 (a + 4#32))
      else .ok (assemble op u1 placeholderUnit, s1)

/-- Phase 5 (R107): the opcode's cycle cost is added when phases 1 to 4 all succeeded, that is when phase 4 left the
fault latch clear. -/
def retire (i : Instr) : Host.Outcome State Fault Refusal → Host.Outcome State Fault Refusal
  | .next t => .next (if t.fault = none then addCycles t (cycleCost (opcodeOf i)) else t)
  | .fault f => .fault f
  | .refused r => .refused r

/-- A fetch unit placed at the halfword that holds `addr`, from outside the machine (log 6). -/
def placeUnit (bus : Bus) (addr : Word) (u : Halfword) : Bus :=
  placeByte (placeByte bus (halfwordAddr addr) (lowByte u)) (halfwordAddr addr + 1#32) (highByte u)

/-- Fetch units placed one behind the other from `addr` on. -/
def placeUnits (bus : Bus) (addr : Word) : List Halfword → Bus
  | [] => bus
  | u :: us => placeUnits (placeUnit bus addr u) (addr + 2#32) us

end Sys2Proof.Machine
end

