-- ==== Sys2Proof/Machine/Step.lean ====
section
/-! DEFINITION. The step (spec/40_sequencer.md R100): one whole instruction. -/

namespace Sys2Proof.Machine

open Sys2Proof

/-- `step(bus)` (R100). `next t`: the step ran; it returned `Ok(())` where t's fault latch is clear and the latched
error where it is set (R109). `fault (halted e)`: the core was already halted; the step changed nothing and returned
the latched error (R101). See log 1. -/
def step (s : State) : Host.Outcome State Fault Refusal :=
  match s.fault with
  | some e => .fault (.halted e)
  | none =>
    match fetchInstr s with
    | .error t => .next t
    | .ok (i, t) => retire i (exec i t)

/-- The state with an instruction of the opcode table standing where `step` fetches next: the program image's bytes
at the PC, as the loader would have given them (log 6). -/
def State.withFetchWord (s : State) (nbits w : Nat) : State :=
  setBus s (placeUnits s.bus s.pc (tableUnits nbits w))

end Sys2Proof.Machine
end

