-- ==== Sys2Proof/Machine/Inspect.lean ====
section
/-! DEFINITION. The host's side: the inspection interface (spec/60_exceptions.md R164), what a step returns (R12, R100),
and runs (spec/40_sequencer.md R112, R113). -/

namespace Sys2Proof.Machine

open Sys2Proof

/-- `program_counter()` (R164). -/
def programCounter (s : State) : BitVec 32 := s.pc

/-- `general_register(i)` (R164): through the accessor (R24). The index is 5 bits, so none is out of range (D20). -/
def generalRegister (s : State) (i : RegIdx) : BitVec 32 := readReg s i

/-- `status_snapshot()` (R164, R33). -/
def statusSnapshot (s : State) : BitVec 32 := snapshot s.psw

/-- "inspect bus", one byte (R166). -/
def inspectByte (s : State) (addr : Word) : Except BusError Byte := readByte s.bus addr

/-- "inspect bus", one halfword (R166). -/
def inspectHalfword (s : State) (addr : Word) : Except BusError Halfword := readHalfword s.bus addr

/-- A new core with the opcode map of an old one, bound to its bus (R183, R184). -/
def rebind (s : State) : State := State.construct s.opcodeMap s.bus

/-- The state after one call of `step`: a step that answers no next state changes nothing (R101). -/
def afterStep (s : State) : State :=
  match step s with
  | .next t => t
  | .fault _ => s
  | .refused _ => s

/-- What the step returns to the driver: `Ok(())`, or the error, which the fault latch then holds (R35, R109). -/
def stepResult (s : State) : Except CoreError Unit :=
  match (afterStep s).fault with
  | none => .ok ()
  | some e => .error e

/-- The state after the driver has called `step` n times (R112, R113). -/
def drive : Nat → State → State
  | 0, s => s
  | n + 1, s => drive n (afterStep s)

end Sys2Proof.Machine
end

