-- ==== Sys2Proof/Safety.lean ====
section
/-! DEFINITION. What claims about runs speak of: a faulted run (spec/40_sequencer.md R113), the invariant of a machine
whose bus was constructed (spec/20_memory.md R51) and whose opcode map is well-formed, and the layout that no step changes. -/

namespace Sys2Proof.Machine

open Sys2Proof

/-- A run of n steps from s is faulted when some step of it returned an error (R113). -/
def Faulted (n : Nat) (s : State) : Prop := ∃ k < n, ∃ e, stepResult (drive k s) = .error e

/-- A run of n steps is safe when its last state has no error latched: the premise of claims about programs (R113). -/
def SafeRun (n : Nat) (s : State) : Prop := (drive n s).fault = none

/-- The invariant of every state reached from a machine constructed with a well-formed opcode map: the region table is
one that R51 admits, every store is in its canonical form, and no two opcodes have one number. -/
abbrev State.Inv (s : State) : Prop := s.bus.wf = true ∧ s.opcodeMap.WellFormed

/-- Everything of a region but its bytes: the region layout, which is fixed configuration (R20). -/
def Region.layout (r : Region) : Nat × Nat × Nat × Capability := (r.lo, r.hi, r.size, r.cap)

/-- The layout of the region table. -/
def Bus.layout (bus : Bus) : List (Nat × Nat × Nat × Capability) := bus.regions.map Region.layout

/-- The documented configuration: the ROM region is the only one (R50). -/
def Bus.Documented (bus : Bus) : Prop := ∃ rom : Region, rom.romWf = true ∧ bus.regions = [rom]

/-! ### Frames -/

/-- Every general register reads as before. -/
def SameRegs (s t : State) : Prop := ∀ r : RegIdx, readReg t r = readReg s r

/-- Register `d` reads `v`, unless it is register 0, which reads 0; every other register reads as before (R22, R23). -/
def WritesReg (s t : State) (d : RegIdx) (v : Word) : Prop :=
  ∀ r : RegIdx, readReg t r = if r = 0#5 then 0#32 else if r = d then v else readReg s r

/-- Every address reads as before, an unmapped one included, and the bus is the same. -/
def SameMemory (s t : State) : Prop := t.bus = s.bus ∧ ∀ a : Word, readByte t.bus a = readByte s.bus a

/-- The status fields that nothing writes (R32). -/
def StatusWord.inert (p : StatusWord) : Bool × Bool × Bool × Bool × Bool × Bool × Bool × Bool × Bool × BitVec 4 :=
  (p.fp0, p.fp1, p.fp2, p.fp3, p.fp4, p.id, p.ae, p.ep, p.np, p.i)

end Sys2Proof.Machine
end

