-- ==== Sys2Proof/Certificates/Slice0/Obligations.lean ====
section
/-! DEFINITION. The statements for the provers. Each docstring names the rules of spec/ it formalises; where a clause
rests on a choice that the spec marks as its own (D<n>) or on general knowledge (GK<n>), it names that and the log
entry. -/

open Sys2Proof Sys2Proof.Machine

/-! ### General registers -/

/-- R22 and R23: register 0 reads 0, registers 1 to 31 read their slots, a write to register 0 changes nothing, and a
write to another register changes its own slot and nothing else. -/
def Obligations.RegisterAccessorsKeepZero : Prop :=
  (∀ s : State, readReg s 0#5 = 0#32) ∧
  (∀ (s : State) (i : RegIdx) (h : i.toNat - 1 < 31), i ≠ 0#5 → readReg s i = s.gpr[i.toNat - 1]) ∧
  (∀ (s : State) (v : Word), writeReg s 0#5 v = s) ∧
  (∀ (s : State) (i : RegIdx) (v : Word), i ≠ 0#5 →
    writeReg s i v = { s with gpr := (writeReg s i v).gpr } ∧
    ∀ (k : Nat) (hk : k < 31), (writeReg s i v).gpr[k] = if k + 1 = i.toNat then v else s.gpr[k])

/-! ### ALU functions and operands -/

/-- R121, R123, R124: addition modulo 2^32; the sign extension of imm5, bit by bit, as a signed value and in the
rule's two cases; the sign extension of a 16-bit value; and imm16 placed in the high half. -/
def Obligations.AluFunctionsAndExtensions : Prop :=
  (∀ a b : Word, (add32 a b).toNat = (a.toNat + b.toNat) % 2 ^ 32) ∧
  (∀ v : BitVec 5, (∀ k < 32, (sextImm5 v).getLsbD k = v.getLsbD (if k < 5 then k else 4)) ∧
    (sextImm5 v).toInt = v.toInt ∧
    (sextImm5 v).toNat = if v.getLsbD 4 then v.toNat + 0xFFFFFFE0 else v.toNat) ∧
  (∀ v : BitVec 16, (∀ k < 32, (sext16 v).getLsbD k = v.getLsbD (if k < 16 then k else 15)) ∧
    (sext16 v).toInt = v.toInt) ∧
  (∀ v : BitVec 16, ∀ k < 32, (highHalf v).getLsbD k = if k < 16 then false else v.getLsbD (k - 16))

/-- R140: the effective address is `x[reg1]` plus the signed displacement modulo 2^32, with reg1 = 0 the
sign-extended displacement alone; the 32-bit address goes to the bus unchanged, whose answer is the bus after the store;
and neither store modifies the base register or any other. -/
def Obligations.EffectiveAddressRegisterPlusDisplacement : Prop :=
  ∀ (s : State) (reg1 reg2 : RegIdx) (d : BitVec 16),
    ((effectiveAddress s reg1 d).toNat : Int) = ((readReg s reg1).toNat + d.toInt) % 2 ^ 32 ∧
    (reg1 = 0#5 → effectiveAddress s reg1 d = d.signExtend 32) ∧
    (∀ b, writeByte s.bus (effectiveAddress s reg1 d) ((readReg s reg2).extractLsb' 0 8) = .ok b →
      exec (.stb reg2 d reg1) s = .next { s with bus := b }) ∧
    (∀ b, writeWord s.bus (effectiveAddress s reg1 d) (readReg s reg2) = .ok b →
      exec (.outw reg2 d reg1) s = .next { s with bus := b }) ∧
    (∀ t, exec (.stb reg2 d reg1) s = .next t ∨ exec (.outw reg2 d reg1) s = .next t → SameRegs s t)

/-- R130: CY is the unsigned borrow; OV is the signed overflow of the difference, which is also the difference of the
operands' bits 31 with a result that differs from lhs in bit 31; Z and CY are never both set. The spec derives the
rule from R122. -/
def Obligations.SubFlagsAreBorrowAndSignedOverflow : Prop :=
  ∀ lhs rhs : Word,
    ((sub32 lhs rhs).cy = true ↔ lhs.toNat < rhs.toNat) ∧
    ((sub32 lhs rhs).ov = true ↔ lhs.toInt - rhs.toInt < -2 ^ 31 ∨ 2 ^ 31 ≤ lhs.toInt - rhs.toInt) ∧
    ((sub32 lhs rhs).ov = true ↔
      lhs.getLsbD 31 ≠ rhs.getLsbD 31 ∧ (sub32 lhs rhs).result.getLsbD 31 ≠ lhs.getLsbD 31) ∧
    ¬((sub32 lhs rhs).z = true ∧ (sub32 lhs rhs).cy = true)

/-! ### The meanings: result, frame, completion -/

/-- R122, on the instruction that uses it: SUB always completes; the result is lhs - rhs modulo 2^32 with lhs the old
`x[reg2]` and rhs the old `x[reg1]`; Z, S, OV and CY are as R122 gives them; reg2 = 0 discards the result only; the PC,
every other register, every other status field, the cycle counter, the latch and all of memory are unchanged. -/
def Obligations.SubWritesResultAndFourFlags : Prop :=
  ∀ (s : State) (reg1 reg2 : RegIdx), ∃ (t : State) (v : Word),
    exec (.sub reg1 reg2) s = .next t ∧
    v.toNat = ((readReg s reg2).toNat + (2 ^ 32 - (readReg s reg1).toNat)) % 2 ^ 32 ∧
    WritesReg s t reg2 v ∧
    (t.psw.z = true ↔ v = 0#32) ∧
    (t.psw.s = true ↔ 2 ^ 31 ≤ v.toNat) ∧
    (t.psw.ov = true ↔
      ((readReg s reg2 ^^^ readReg s reg1) &&& ~~~(readReg s reg1 ^^^ v) &&& 0x80000000#32) ≠ 0#32) ∧
    (t.psw.cy = true ↔ (readReg s reg2).toNat < (readReg s reg1).toNat) ∧
    t.psw.inert = s.psw.inert ∧ t.pc = s.pc ∧ t.cycles = s.cycles ∧ t.fault = s.fault ∧ SameMemory s t ∧ t.opcodeMap = s.opcodeMap

/-- The pseudocode of R125: MOV always completes with the sign-extended imm5 in reg2 (discarded where reg2 = 0) and
everything else unchanged. -/
def Obligations.MovWritesSignExtendedImmediate : Prop :=
  ∀ (s : State) (imm5 : BitVec 5) (reg2 : RegIdx), ∃ (t : State) (v : Word),
    exec (.mov imm5 reg2) s = .next t ∧
    (v.toInt = imm5.toInt) ∧ WritesReg s t reg2 v ∧
    t.psw = s.psw ∧ t.pc = s.pc ∧ t.cycles = s.cycles ∧ t.fault = s.fault ∧ SameMemory s t ∧ t.opcodeMap = s.opcodeMap

/-- The pseudocode of R127: MOVHI always completes with `x[reg1] + imm16 * 65536` modulo 2^32 in reg2 (discarded where
reg2 = 0) and everything else unchanged. -/
def Obligations.MovhiAddsHighImmediate : Prop :=
  ∀ (s : State) (imm16 : BitVec 16) (reg1 reg2 : RegIdx), ∃ (t : State) (v : Word),
    exec (.movhi imm16 reg1 reg2) s = .next t ∧
    v.toNat = ((readReg s reg1).toNat + imm16.toNat * 65536) % 2 ^ 32 ∧ WritesReg s t reg2 v ∧
    t.psw = s.psw ∧ t.pc = s.pc ∧ t.cycles = s.cycles ∧ t.fault = s.fault ∧ SameMemory s t ∧ t.opcodeMap = s.opcodeMap

/-- The pseudocode of R128: MOVEA always completes with `x[reg1]` plus the signed imm16 modulo 2^32 in reg2 (discarded
where reg2 = 0) and everything else unchanged. -/
def Obligations.MoveaAddsSignedImmediate : Prop :=
  ∀ (s : State) (imm16 : BitVec 16) (reg1 reg2 : RegIdx), ∃ (t : State) (v : Word),
    exec (.movea imm16 reg1 reg2) s = .next t ∧
    (v.toNat : Int) = ((readReg s reg1).toNat + imm16.toInt) % 2 ^ 32 ∧ WritesReg s t reg2 v ∧
    t.psw = s.psw ∧ t.pc = s.pc ∧ t.cycles = s.cycles ∧ t.fault = s.fault ∧ SameMemory s t ∧ t.opcodeMap = s.opcodeMap

/-- The pseudocode of R115: JMP always completes with the PC at `x[reg1]`, whatever value that is, and everything else
unchanged: no register takes a return address. -/
def Obligations.JmpSetsPcOnly : Prop :=
  ∀ (s : State) (reg1 : RegIdx), ∃ t : State,
    exec (.jmp reg1) s = .next t ∧ t.pc = readReg s reg1 ∧ SameRegs s t ∧
    t.psw = s.psw ∧ t.cycles = s.cycles ∧ t.fault = s.fault ∧ SameMemory s t ∧ t.opcodeMap = s.opcodeMap

/-- The pseudocode of R131: MOVEA L, r0, rX and then MOVHI H, rX, rX leave `(H << 16) + sext(L)`, which is the halves
H and L, or H - 1 and L where bit 15 of L is set; with H = K[31:16] + K[15] and L = K[15:0] they leave K. The spec
derives the rule from R127 and R128 (and corrects the source's claim, C2). -/
def Obligations.MoveaThenMovhiBuildsConstant : Prop :=
  ∀ (s : State) (x : RegIdx) (L H : BitVec 16), x ≠ 0#5 → ∃ t u : State,
    exec (.movea L 0#5 x) s = .next t ∧ exec (.movhi H x x) t = .next u ∧
    readReg u x = (if L.getLsbD 15 then (H - 1#16) ++ L else H ++ L) ∧
    (∀ r, r ≠ x → readReg u r = readReg s r) ∧ u.psw = s.psw ∧ u.bus = s.bus ∧
    (∀ K : Word, L = K.extractLsb' 0 16 → H = K.extractLsb' 16 16 + (BitVec.ofBool (K.getLsbD 15)).setWidth 16 →
      readReg u x = K)

/-- The pseudocode of R141, where the store succeeds: ST.B to a read-write region completes, the byte at the effective
address reads the low 8 bits of `x[reg2]`, every address with another location reads as before, every register, the
status word, the PC, the cycle counter and the latch are unchanged. -/
def Obligations.StbStoresLowByte : Prop :=
  ∀ (s : State) (reg1 reg2 : RegIdx) (d : BitVec 16) (p : Place), s.bus.wf = true →
    resolve s.bus (a27 (effectiveAddress s reg1 d)) = some p → p.region.cap = .readWrite →
    ∃ t : State, exec (.stb reg2 d reg1) s = .next t ∧
      (∀ a, location s.bus a = location s.bus (effectiveAddress s reg1 d) →
        readByte t.bus a = .ok ((readReg s reg2).extractLsb' 0 8)) ∧
      (∀ a, location s.bus a ≠ location s.bus (effectiveAddress s reg1 d) →
        readByte t.bus a = readByte s.bus a) ∧
      SameRegs s t ∧ t.psw = s.psw ∧ t.pc = s.pc ∧ t.cycles = s.cycles ∧ t.fault = s.fault ∧
      t.bus.layout = s.bus.layout ∧ t.opcodeMap = s.opcodeMap

/-- The pseudocode of R142, where the store succeeds: OUT.W to a read-write region completes, the four bytes of the
word that holds the effective address read `x[reg2]` with the low byte lowest, every address with another location reads
as before, and everything but memory is unchanged. Byte order and alignment are the spec's choice (D8, D9, log 10). -/
def Obligations.OutwStoresWordLittleEndian : Prop :=
  ∀ (s : State) (reg1 reg2 : RegIdx) (d : BitVec 16) (p : Place), s.bus.wf = true →
    resolve s.bus (a27 (wordAddr (effectiveAddress s reg1 d))) = some p → p.region.cap = .readWrite →
    ∃ t : State, exec (.outw reg2 d reg1) s = .next t ∧
      (∀ k < 4, readByte t.bus (wordAddr (effectiveAddress s reg1 d) + BitVec.ofNat 32 k) =
        .ok ((readReg s reg2).extractLsb' (8 * k) 8)) ∧
      (∀ a, (∀ k < 4, location s.bus a ≠
          location s.bus (wordAddr (effectiveAddress s reg1 d) + BitVec.ofNat 32 k)) →
        readByte t.bus a = readByte s.bus a) ∧
      SameRegs s t ∧ t.psw = s.psw ∧ t.pc = s.pc ∧ t.cycles = s.cycles ∧ t.fault = s.fault ∧
      t.bus.layout = s.bus.layout ∧ t.opcodeMap = s.opcodeMap

/-- The errors of R141 and R142: a store to an unmapped or read-only address changes nothing but the fault latch, which
takes the kind, the effective address and the address of the instruction. The latch and what it records are the spec's
choice (D6, D7, logs 1 and 13). -/
def Obligations.FailedStoreOnlySetsLatch : Prop :=
  ∀ (s : State) (reg1 reg2 : RegIdx) (d : BitVec 16),
    (resolve s.bus (a27 (effectiveAddress s reg1 d)) = none →
      exec (.stb reg2 d reg1) s =
        .next { s with fault := some (.bus .unmappedWrite (effectiveAddress s reg1 d) (s.pc - 4#32)) }) ∧
    (∀ p, resolve s.bus (a27 (effectiveAddress s reg1 d)) = some p → p.region.cap = .readOnly →
      exec (.stb reg2 d reg1) s =
        .next { s with fault := some (.bus .readOnlyWrite (effectiveAddress s reg1 d) (s.pc - 4#32)) }) ∧
    (resolve s.bus (a27 (wordAddr (effectiveAddress s reg1 d))) = none →
      exec (.outw reg2 d reg1) s =
        .next { s with fault := some (.bus .unmappedWrite (effectiveAddress s reg1 d) (s.pc - 4#32)) }) ∧
    (∀ p, resolve s.bus (a27 (wordAddr (effectiveAddress s reg1 d))) = some p → p.region.cap = .readOnly →
      exec (.outw reg2 d reg1) s =
        .next { s with fault := some (.bus .readOnlyWrite (effectiveAddress s reg1 d) (s.pc - 4#32)) })

/-- R143: in the documented configuration every ST.B and every OUT.W fails, with ReadOnlyWrite where the address is in
the ROM window and UnmappedWrite elsewhere. The spec derives the rule; the latch is its choice (D6, D7). -/
def Obligations.StoresFailInDocumentedConfiguration : Prop :=
  ∀ (s : State) (reg1 reg2 : RegIdx) (d : BitVec 16), s.bus.Documented →
    exec (.stb reg2 d reg1) s = .next { s with
      fault := some (.bus (if 0x07000000 ≤ (effectiveAddress s reg1 d).toNat % 2 ^ 27 then .readOnlyWrite
        else .unmappedWrite) (effectiveAddress s reg1 d) (s.pc - 4#32)) } ∧
    exec (.outw reg2 d reg1) s = .next { s with
      fault := some (.bus (if 0x07000000 ≤ (effectiveAddress s reg1 d).toNat % 2 ^ 27 then .readOnlyWrite
        else .unmappedWrite) (effectiveAddress s reg1 d) (s.pc - 4#32)) }

/-- R58, R67, R69: what a store has written, a fetch of that location reads. After an OUT.W the word's two halfwords
read back low half first; after an ST.B the halfword that holds the byte has it in the half that its address says.
The coherence, and OUT.W's order and alignment, are the spec's choice (D8, D9, D15, D16, logs 10 and 17). -/
def Obligations.StoredBytesAreFetched : Prop :=
  ∀ (s t : State) (reg1 reg2 : RegIdx) (d : BitVec 16), s.bus.wf = true → s.fault = none → t.fault = none →
    (exec (.outw reg2 d reg1) s = .next t →
      readHalfword t.bus (wordAddr (effectiveAddress s reg1 d)) = .ok ((readReg s reg2).extractLsb' 0 16) ∧
      readHalfword t.bus (wordAddr (effectiveAddress s reg1 d) + 2#32) = .ok ((readReg s reg2).extractLsb' 16 16)) ∧
    (exec (.stb reg2 d reg1) s = .next t →
      ∃ u, readHalfword t.bus (effectiveAddress s reg1 d) = .ok u ∧
        u.extractLsb' (if (effectiveAddress s reg1 d).getLsbD 0 then 8 else 0) 8 = (readReg s reg2).extractLsb' 0 8)

/-! ### Whole instructions, from the fetch to the cycle counter -/

/-- R125, whole: MOV's number in the default opcode map is 010000; and under every well-formed map a step that fetches a
unit whose bits 15..10 are MOV's number puts the sign-extended bits 4..0 into the register that bits 9..5 name, moves the
PC by 2, adds 1 cycle, fails never and changes nothing else. -/
def Obligations.MovStepIsRuleR125 : Prop :=
  defaultOpcodeMap.mov = 0b010000#6 ∧
  ∀ (s : State) (u1 : Halfword), s.opcodeMap.WellFormed → s.fault = none → readHalfword s.bus s.pc = .ok u1 →
    u1.extractLsb' 10 6 = s.opcodeMap.mov →
    ∃ (t : State) (v : Word), step s = .next t ∧
      (∀ k < 32, v.getLsbD k = u1.getLsbD (if k < 5 then k else 4)) ∧
      WritesReg s t (u1.extractLsb' 5 5) v ∧
      t.pc = s.pc + 2#32 ∧ t.psw = s.psw ∧ t.cycles = s.cycles + 1 ∧ t.fault = none ∧ SameMemory s t ∧ t.opcodeMap = s.opcodeMap

/-- R115: JMP's number in the default opcode map is 000110; and under every well-formed map a step that fetches a unit
whose bits 15..10 are JMP's number sets the PC to the register that bits 4..0 name, bits 9..5 ignored and the target
unchecked, adds 3 cycles, fails never and changes nothing else. The next fetch reads at the target with bit 0 and bits
31..27 cleared; where that is unmapped, the next step fails with UnmappedRead. That bits 9..5 do not matter is the
spec's choice (D13, log 15), and so is the latch that the failing step sets (D6); that this step is a next state is the
model's (log 1). -/
def Obligations.JmpStepIsRuleR115 : Prop :=
  defaultOpcodeMap.jmp = 0b000110#6 ∧
  ∀ (s : State) (u1 : Halfword), s.opcodeMap.WellFormed → s.fault = none → readHalfword s.bus s.pc = .ok u1 →
    u1.extractLsb' 10 6 = s.opcodeMap.jmp →
    ∃ t : State, step s = .next t ∧
      t.pc = readReg s (u1.extractLsb' 0 5) ∧ SameRegs s t ∧
      t.psw = s.psw ∧ t.cycles = s.cycles + 3 ∧ t.fault = none ∧ SameMemory s t ∧ t.opcodeMap = s.opcodeMap ∧
      (readHalfword t.bus t.pc).toOption = (readHalfword t.bus (t.pc &&& 0x07FFFFFE#32)).toOption ∧
      (resolve t.bus (a27 (t.pc &&& 0xFFFFFFFE#32)) = none →
        ∃ t' a p, step t = .next t' ∧ t'.fault = some (.bus .unmappedRead a p))

/-- The step runs the decoded instruction (R100): where the bytes at the PC, its bit 0 cleared, decode to an
instruction under the core's opcode map, the step is exec of it at the state whose PC stands behind it, and the cycle cost is added when that left
the fault latch clear. -/
def Obligations.StepRunsDecodedInstruction : Prop :=
  ∀ (s : State) (i : Instr) (bytes rest : List Byte), s.fault = none →
    (∀ (k : Nat) (hk : k < bytes.length),
      readByte s.bus ((s.pc &&& 0xFFFFFFFE#32) + BitVec.ofNat 32 k) = .ok bytes[k]) →
    decodeBytesWith s.opcodeMap bytes = .ok (i, rest) →
    step s = match exec i { s with pc := s.pc + instrLength i } with
      | .next t => .next (if t.fault = none then { t with cycles := t.cycles + cycleCost (opcodeOf i) } else t)
      | .fault f => .fault f
      | .refused r => .refused r

/-- No instruction is refused and no fault stops a core whose latch is clear: every meaning answers a next state, and
so does every step (R109, R154). That a failing step is a next state is the model's choice (log 1). -/
def Obligations.EveryStepOfARunningCoreCompletes : Prop :=
  (∀ (i : Instr) (s : State), ∃ t, exec i s = .next t) ∧ (∀ s : State, s.fault = none → ∃ t, step s = .next t)

/-! ### Failing and halting -/

/-- The table of R109, row by row: what each failure leaves, the PC at A, A, A + 2 or A + 4 and the latch set and
nothing else changed, under every opcode map (the third row, whose opcode a number names, under every well-formed one).
The table, the latch and what it records are the spec's choice (D5, D6, D7, logs 1, 11, 13). -/
def Obligations.FailedStepLeavesTableR109 : Prop :=
  ∀ s : State, s.fault = none →
    (∀ b, readHalfword s.bus s.pc = .error b →
      step s = .next { s with fault := some (.bus .unmappedRead s.pc s.pc) }) ∧
    (∀ u1, readHalfword s.bus s.pc = .ok u1 → (∀ op, s.opcodeMap.number op ≠ u1.extractLsb' 10 6) →
      step s = .next { s with fault := some (.decode u1 s.pc) }) ∧
    (∀ u1 op b, s.opcodeMap.WellFormed → readHalfword s.bus s.pc = .ok u1 → s.opcodeMap.number op = u1.extractLsb' 10 6 →
      hasSecondUnit (formatOf op) = true → readHalfword s.bus (s.pc + 2#32) = .error b →
      step s = .next { s with pc := s.pc + 2#32, fault := some (.bus .unmappedRead (s.pc + 2#32) s.pc) }) ∧
    (∀ reg1 reg2 d u, fetchInstr s = .ok (.stb reg2 d reg1, u) ∨ fetchInstr s = .ok (.outw reg2 d reg1, u) →
      ∀ t, step s = .next t → t.fault ≠ none →
        ∃ kind, (kind = .unmappedWrite ∨ kind = .readOnlyWrite) ∧
          t = { s with pc := s.pc + 4#32, fault := some (.bus kind (effectiveAddress s reg1 d) s.pc) })

/-- R151: a DecodeError is raised only where the fetched unit's bits 15..10 are in no row of OPCODE_MAP; it records the
whole unit and the PC; and no instruction raises one while executing. That it records the whole unit and the PC is the
spec's choice (D7, log 13), and so is the latch that holds it (D6); that the failing step is a next state is the model's
(log 1). -/
def Obligations.DecodeErrorOnlyFromUnknownOpcode : Prop :=
  (∀ (s t : State) (u : Halfword) (a : Word), step s = .next t → t.fault = some (.decode u a) →
    readHalfword s.bus s.pc = .ok u ∧ a = s.pc ∧ ∀ op, s.opcodeMap.number op ≠ u.extractLsb' 10 6) ∧
  (∀ (s : State) (u : Halfword), s.fault = none → readHalfword s.bus s.pc = .ok u →
    (∀ op, s.opcodeMap.number op ≠ u.extractLsb' 10 6) → ∃ t, step s = .next t ∧ t.fault = some (.decode u s.pc)) ∧
  (∀ (i : Instr) (s t : State) (u : Halfword) (a : Word), exec i s = .next t → t.fault = some (.decode u a) →
    s.fault = some (.decode u a))

/-- R101, R110: a step of a core whose latch is set returns the latched error and changes nothing, however often the
driver calls it. The latch is the spec's choice (D6); that the outcome is a fault is the model's (log 1). -/
def Obligations.HaltedCoreStaysHalted : Prop :=
  ∀ (s : State) (e : CoreError), s.fault = some e →
    step s = .fault (.halted e) ∧ ∀ n, drive n s = s ∧ stepResult (drive n s) = .error e

/-- R113: a run from a core whose latch is clear is faulted, that is some step of it returned an error, exactly when
the latch is set at its end. The definition of a run is the spec's choice (D28). -/
def Obligations.RunFaultedIffLatchSetAtEnd : Prop :=
  ∀ (n : Nat) (s : State), s.fault = none → (Faulted n s ↔ (drive n s).fault ≠ none)

/-- R88 and R107: a step that succeeds adds the cycle cost of its opcode, 3 for JMP and 1 for every other, whatever its
operands; a step that fails adds nothing. Whether it failed is read from the latch (D6, log 1). -/
def Obligations.CyclesAddedOnlyBySuccessfulSteps : Prop :=
  ∀ s t : State, step s = .next t →
    (t.fault = none → ∃ i u, fetchInstr s = .ok (i, u) ∧
      t.cycles = s.cycles + if opcodeOf i = .jmp then 3 else 1) ∧
    (t.fault ≠ none → t.cycles = s.cycles)

/-- R34, R188: nothing depends on the cycle counter. A core that differs in it alone steps to a state that differs in it
alone, and stops exactly where the other stops. R34 marks the counter's width as the spec's choice (D4). -/
def Obligations.NothingReadsTheCycleCounter : Prop :=
  ∀ (s : State) (n : Nat),
    (∀ t, step s = .next t → ∃ m, step { s with cycles := n } = .next { t with cycles := m }) ∧
    (∀ f, step s = .fault f → step { s with cycles := n } = .fault f)

/-- R116: JMP is the only instruction that writes the PC other than the sequencer's advance past the instruction; JMP
takes it straight to the target (no delay slot) and writes no register (no link). -/
def Obligations.OnlyJmpWritesThePc : Prop :=
  ∀ (s t u : State) (i : Instr), s.fault = none → fetchInstr s = .ok (i, u) → step s = .next t →
    u.pc = s.pc + (if hasSecondUnit (formatOf (opcodeOf i)) then 4#32 else 2#32) ∧
    (opcodeOf i ≠ .jmp → t.pc = u.pc) ∧
    (∀ reg1, i = .jmp reg1 → t.pc = readReg s reg1 ∧ SameRegs s t)

/-! ### The status word -/

/-- R31: only SUB writes Z, S, OV and CY, all four on every executed SUB, reg2 = 0 included; nothing a step does depends
on the status word; and the host reads every field through the snapshot. -/
def Obligations.OnlySubWritesFlagsAndNothingReadsThem : Prop :=
  (∀ s t : State, step s = .next t →
    (∀ u, fetchInstr s = .error u → t.psw = s.psw) ∧
    (∀ i u, fetchInstr s = .ok (i, u) → opcodeOf i ≠ .sub → t.psw = s.psw) ∧
    (∀ reg1 reg2 u, fetchInstr s = .ok (.sub reg1 reg2, u) →
      t.psw = { s.psw with
        z := decide (readReg s reg2 = readReg s reg1)
        s := (readReg s reg2 - readReg s reg1).getLsbD 31
        ov := decide ((readReg s reg2 ^^^ readReg s reg1) &&&
          ~~~(readReg s reg1 ^^^ (readReg s reg2 - readReg s reg1)) &&& 0x80000000#32 ≠ 0#32)
        cy := decide ((readReg s reg2).toNat < (readReg s reg1).toNat) })) ∧
  (∀ (s : State) (p : StatusWord),
    (∀ t, step s = .next t → ∃ q, step { s with psw := p } = .next { t with psw := q }) ∧
    (∀ f, step s = .fault f → step { s with psw := p } = .fault f)) ∧
  (∀ s s' : State, statusSnapshot s = statusSnapshot s' → s.psw = s'.psw)

/-- R32, R156: FP0 to FP4, ID, AE, EP, NP and I keep their values over every run, errors included; so NP stays 1 and the
others 0 from construction on. The spec derives R32. -/
def Obligations.InertStatusFieldsNeverChange : Prop :=
  (∀ (n : Nat) (s : State), (drive n s).psw.inert = s.psw.inert) ∧
  (∀ (n : Nat) (m : OpcodeMap) (bus : Bus), (drive n (State.construct m bus)).psw.inert =
    (false, false, false, false, false, false, false, false, true, 0#4))

/-- R33: the snapshot bit by bit, as the rule's table lays the fields out, 0 where it has none. The bit positions are
general knowledge (GK4, D3, log 9). -/
def Obligations.SnapshotIsTheLayoutOfR33 : Prop :=
  ∀ (s : State) (k : Nat), (statusSnapshot s).getLsbD k =
    if 16 ≤ k ∧ k ≤ 19 then s.psw.i.getLsbD (k - 16)
    else match k with
      | 0 => s.psw.z
      | 1 => s.psw.s
      | 2 => s.psw.ov
      | 3 => s.psw.cy
      | 4 => s.psw.fp0
      | 5 => s.psw.fp1
      | 6 => s.psw.fp2
      | 7 => s.psw.fp3
      | 8 => s.psw.fp4
      | 12 => s.psw.id
      | 13 => s.psw.ae
      | 14 => s.psw.ep
      | 15 => s.psw.np
      | _ => false

/-! ### The decoder -/

/-- R83: under every well-formed opcode map, `decode` answers an opcode exactly when bits 15..10 are its number, and the
error with the whole unit exactly when they are no opcode's. That the error carries the whole unit is the spec's choice
(D7, log 13). -/
def Obligations.DecodeLooksOnlyAtOpcodeBits : Prop :=
  ∀ m : OpcodeMap, m.WellFormed → ∀ u1 : Halfword,
    (∀ op, decodeWith m u1 = .ok op ↔ u1.extractLsb' 10 6 = m.number op) ∧
    (∀ e, decodeWith m u1 = .error e ↔ e = ⟨u1⟩ ∧ ∀ op, u1.extractLsb' 10 6 ≠ m.number op)

/-- R85, R86: with the default map exactly seven patterns decode, and to the opcodes the table names; every other unit
is a DecodeError. Five of the numbers are general knowledge (GK5, D2, log 8). -/
def Obligations.SevenPatternsDecode : Prop :=
  ∀ u1 : Halfword, decode u1 =
    if u1.toNat / 1024 = 0b000110 then .ok .jmp
    else if u1.toNat / 1024 = 0b010000 then .ok .mov
    else if u1.toNat / 1024 = 0b000010 then .ok .sub
    else if u1.toNat / 1024 = 0b101000 then .ok .movea
    else if u1.toNat / 1024 = 0b101111 then .ok .movhi
    else if u1.toNat / 1024 = 0b110100 then .ok .stb
    else if u1.toNat / 1024 = 0b111111 then .ok .outw
    else .error ⟨u1⟩

/-- The decoder vectors of spec/95_test_vectors.md 2.1 and R94's example, as bytes in memory: a sanity statement. -/
def Obligations.DecoderReadsTheSpecsWords : Prop :=
  decodeBytes [0x25, 0x40] = .ok (.mov 5#5 1#5, []) ∧
  decodeBytes [0x01, 0x18] = .ok (.jmp 1#5, []) ∧
  decodeBytes [0xFF, 0x1B] = .ok (.jmp 31#5, []) ∧
  decodeBytes [0x41, 0x08] = .ok (.sub 1#5 2#5, []) ∧
  decodeBytes [0x20, 0xA0, 0x78, 0x56] = .ok (.movea 0x5678#16 0#5 1#5, []) ∧
  decodeBytes [0x21, 0xBC, 0x34, 0x12] = .ok (.movhi 0x1234#16 1#5 1#5, []) ∧
  decodeBytes [0x41, 0xD0, 0x03, 0x00] = .ok (.stb 2#5 3#16 1#5, []) ∧
  decodeBytes [0x61, 0xFC, 0x09, 0x00] = .ok (.outw 3#5 9#16 1#5, []) ∧
  decodeBytes [0x00, 0x00] = .error (.unknownOpcode ⟨0x0000#16⟩)

/-- Decode and encode agree: under every well-formed opcode map, the bytes of every instruction, with every operand at
every value, decode to that instruction and leave the bytes behind it (R77 to R80, R83, R94). -/
def Obligations.DecodeOfEncodeIsIdentity : Prop :=
  ∀ m : OpcodeMap, m.WellFormed → ∀ (i : Instr) (rest : List Byte),
    decodeBytesWith m (encodeBytesWith m i ++ rest) = .ok (i, rest)

/-- Encode of decode, under every well-formed opcode map: bytes that decode are the instruction's encoding, but for
JMP's ignored bits 9..5, which may be anything (R89, whose reading is the spec's choice, D13, log 15). -/
def Obligations.DecodedBytesAreTheEncoding : Prop :=
  ∀ m : OpcodeMap, m.WellFormed → ∀ (bytes rest : List Byte) (i : Instr),
    decodeBytesWith m bytes = .ok (i, rest) →
      (∀ reg1, i = .jmp reg1 → ∃ high5 : BitVec 5, bytes = unitBytes [packUnit m.jmp high5 reg1] ++ rest) ∧
      (opcodeOf i ≠ .jmp → bytes = encodeBytesWith m i ++ rest)

/-! ### The bus -/

/-- R46: bits 31..27 of an address are discarded. The reduced address is `addr & 0x07FFFFFF`, and two addresses with
one reduced address are one to every bus operation: it answers the same value or the same kind of error, and only the
address that an error names may differ (`mapError` with `kind` drops that address and nothing else). -/
def Obligations.HighAddressBitsAreDiscarded : Prop :=
  (∀ addr : Word, (a27 addr).toNat = (addr &&& 0x07FFFFFF#32).toNat) ∧
  (∀ (bus : Bus) (a b : Word), a &&& 0x07FFFFFF#32 = b &&& 0x07FFFFFF#32 →
    (readByte bus a).mapError (·.kind) = (readByte bus b).mapError (·.kind) ∧
    (readHalfword bus a).mapError (·.kind) = (readHalfword bus b).mapError (·.kind) ∧
    (∀ v, (writeByte bus a v).mapError (·.kind) = (writeByte bus b v).mapError (·.kind)) ∧
    (∀ v, (writeWord bus a v).mapError (·.kind) = (writeWord bus b v).mapError (·.kind)))

/-- R48, R53: a byte is read from the first region in table order whose window holds the reduced address, at the offset
masked by size - 1, read-only or read-write alike; where no window holds it, the read fails. The offset rule for a
region of any base is the spec's choice (D10, log 18). -/
def Obligations.ReadByteFromFirstMatchingRegion : Prop :=
  (∀ (pre post : List Region) (r : Region) (addr : Word),
    (∀ q ∈ pre, ¬(q.lo ≤ addr.toNat % 2 ^ 27 ∧ addr.toNat % 2 ^ 27 ≤ q.hi)) →
    r.lo ≤ addr.toNat % 2 ^ 27 → addr.toNat % 2 ^ 27 ≤ r.hi →
    readByte ⟨pre ++ r :: post⟩ addr = .ok (r.store.read ((addr.toNat % 2 ^ 27 - r.lo) &&& (r.size - 1)))) ∧
  (∀ (bus : Bus) (addr : Word),
    (∀ q ∈ bus.regions, ¬(q.lo ≤ addr.toNat % 2 ^ 27 ∧ addr.toNat % 2 ^ 27 ≤ q.hi)) →
    readByte bus addr = .error ⟨.unmappedRead, addr⟩)

/-- R54, R60: on a well-formed table a halfword read clears bit 0, joins the two bytes low byte first, finds both in one
region, and fails only where that region does not exist, naming the caller's address. The two addresses read and
the address named are the spec's choice (D7, D22, logs 11 and 13). -/
def Obligations.HalfwordReadIsTwoAlignedBytes : Prop :=
  ∀ (bus : Bus) (addr : Word), bus.wf = true →
    (readHalfword bus addr).toOption = (readHalfword bus (addr ^^^ 1#32)).toOption ∧
    (resolve bus (a27 (addr &&& 0xFFFFFFFE#32)) = none → readHalfword bus addr = .error ⟨.unmappedRead, addr⟩) ∧
    (∀ p, resolve bus (a27 (addr &&& 0xFFFFFFFE#32)) = some p →
      ∃ q lo hi, resolve bus (a27 (addr ||| 1#32)) = some q ∧ q.index = p.index ∧
        readByte bus (addr &&& 0xFFFFFFFE#32) = .ok lo ∧ readByte bus (addr ||| 1#32) = .ok hi ∧
        readHalfword bus addr = .ok (hi ++ lo))

/-- R55: `write_byte` fails with UnmappedWrite where no region answers and with ReadOnlyWrite in a read-only region;
in a read-write region of a well-formed table it writes the one byte the address names, which then reads back, and
changes no other byte and no window. That each error names the address the caller passed is the spec's choice (D7, log 13),
and so is the offset rule behind `location` (D10, log 18). -/
def Obligations.WriteByteChangesOneByteOrFails : Prop :=
  ∀ (bus : Bus) (addr : Word) (v : Byte), bus.wf = true →
    (resolve bus (a27 addr) = none → writeByte bus addr v = .error ⟨.unmappedWrite, addr⟩) ∧
    (∀ p, resolve bus (a27 addr) = some p → p.region.cap = .readOnly →
      writeByte bus addr v = .error ⟨.readOnlyWrite, addr⟩) ∧
    (∀ p, resolve bus (a27 addr) = some p → p.region.cap = .readWrite →
      ∃ b, writeByte bus addr v = .ok b ∧ readByte b addr = .ok v ∧
        (∀ a, location bus a ≠ location bus addr → readByte b a = readByte bus a) ∧ b.layout = bus.layout)

/-- R56: `write_word` takes the word-aligned address, fails as `write_byte` does and names the caller's address, and in a
read-write region of a well-formed table writes four bytes, low byte lowest, all in the one region, and no other. Order and
alignment are the spec's choice (D8, D9, log 10). -/
def Obligations.WriteWordIsAllOrNothing : Prop :=
  ∀ (bus : Bus) (addr v : Word), bus.wf = true →
    (resolve bus (a27 (addr &&& 0xFFFFFFFC#32)) = none → writeWord bus addr v = .error ⟨.unmappedWrite, addr⟩) ∧
    (∀ p, resolve bus (a27 (addr &&& 0xFFFFFFFC#32)) = some p → p.region.cap = .readOnly →
      writeWord bus addr v = .error ⟨.readOnlyWrite, addr⟩) ∧
    (∀ p, resolve bus (a27 (addr &&& 0xFFFFFFFC#32)) = some p → p.region.cap = .readWrite →
      ∃ b, writeWord bus addr v = .ok b ∧
        (∀ k < 4, location bus ((addr &&& 0xFFFFFFFC#32) + BitVec.ofNat 32 k) = some (p.index, p.offset + k) ∧
          readByte b ((addr &&& 0xFFFFFFFC#32) + BitVec.ofNat 32 k) = .ok (v.extractLsb' (8 * k) 8)) ∧
        (∀ a, (∀ k < 4, location bus a ≠ some (p.index, p.offset + k)) → readByte b a = readByte bus a) ∧
        b.layout = bus.layout)

/-- R63: within the ROM window, addresses that differ by a multiple of the image's length read the same byte, for every
multiple, negative ones (as 32-bit words) included. The spec derives the rule. -/
def Obligations.RomWindowMirrorsTheImage : Prop :=
  ∀ (bus : Bus) (rom : Region) (a k : Word), bus.wf = true → bus.regions.head? = some rom →
    0x07000000 ≤ (a27 a).toNat → 0x07000000 ≤ (a27 (a + k * BitVec.ofNat 32 rom.size)).toNat →
    ∃ b, readByte bus a = .ok b ∧ readByte bus (a + k * BitVec.ofNat 32 rom.size) = .ok b

/-- R49: the ROM region of a constructed bus has the window 0x07000000..0x07FFFFFF, the image's length, the read-only
capability and the image's bytes, mirrored across the window by masking; and its bytes never change: they read so
after every run of every core stepped against the bus. -/
def Obligations.RomHoldsTheImageForever : Prop :=
  ∀ (image : List Byte) (extra : List RegionParam) (bus : Bus), constructBus image extra = .ok bus →
    (∃ rom, bus.regions.head? = some rom ∧ rom.layout = (0x07000000, 0x07FFFFFF, image.length, .readOnly)) ∧
    ∀ (n : Nat) (s : State) (addr : Word), s.bus = bus → 0x07000000 ≤ (a27 addr).toNat →
      ∃ h : ((a27 addr).toNat &&& (image.length - 1)) < image.length,
        readByte (drive n s).bus addr = .ok image[(a27 addr).toNat &&& (image.length - 1)]

/-- R51, R153: a bus is constructed exactly when the image's length is a power of two from 1 to 2^24 and every extra region
has an ordered window within 27 bits, aligned to 4, a power-of-two size of at least 4 and that many bytes; otherwise
the answer is ConfigurationError. The table is then the ROM and the extra regions in their order (R50). R51's bounds are
the spec's choice (D10, D11, D12, log 18). -/
def Obligations.BusConstructedExactlyWhenR51Holds : Prop :=
  ∀ (image : List Byte) (extra : List RegionParam),
    (((∃ k ≤ 24, image.length = 2 ^ k) ∧
      ∀ p ∈ extra, p.lo ≤ p.hi ∧ p.hi ≤ 0x07FFFFFF ∧ (∃ k, 2 ≤ k ∧ p.size = 2 ^ k) ∧ 4 ∣ p.lo ∧ 4 ∣ p.hi + 1 ∧
        p.bytes.length = p.size) →
      ∃ bus, constructBus image extra = .ok bus ∧
        bus.layout = (0x07000000, 0x07FFFFFF, image.length, Capability.readOnly) ::
          extra.map fun p => (p.lo, p.hi, p.size, p.cap)) ∧
    (¬((∃ k ≤ 24, image.length = 2 ^ k) ∧
      ∀ p ∈ extra, p.lo ≤ p.hi ∧ p.hi ≤ 0x07FFFFFF ∧ (∃ k, 2 ≤ k ∧ p.size = 2 ^ k) ∧ 4 ∣ p.lo ∧ 4 ∣ p.hi + 1 ∧
        p.bytes.length = p.size) →
      constructBus image extra = .error .inconsistentRegionTable)

/-! ### Construction -/

/-- R181: a constructed core starts at 0xFFFFFFF0, which the bus reduces to 0x07FFFFF0 in the ROM window, so that its
first fetch reads the image at offset 0x07FFFFF0 & (N - 1). -/
def Obligations.FirstFetchIsAtTheResetVector : Prop :=
  ∀ (m : OpcodeMap) (image : List Byte) (extra : List RegionParam) (bus : Bus), constructBus image extra = .ok bus →
    (State.construct m bus).pc = 0xFFFFFFF0#32 ∧ (a27 0xFFFFFFF0#32).toNat = 0x07FFFFF0 ∧
    ∃ (lo : (0x07FFFFF0 &&& (image.length - 1)) < image.length) (hi : (0x07FFFFF1 &&& (image.length - 1)) < image.length),
      readHalfword (State.construct m bus).bus (State.construct m bus).pc =
        .ok (image[0x07FFFFF1 &&& (image.length - 1)] ++ image[0x07FFFFF0 &&& (image.length - 1)])

/-- R37: the value of every piece of state after construction, the bytes of the regions among them; and the opcode map,
the parameter that the core was constructed with (R8). The counter's, the
latch's, the snapshot's and RW_INIT's rows are the spec's choice (D3, D4, D6, D23, logs 1, 4, 9, 12). -/
def Obligations.ConstructionValuesOfR37 : Prop :=
  ∀ (m : OpcodeMap) (image : List Byte) (extra : List RegionParam) (bus : Bus), constructBus image extra = .ok bus →
    (State.construct m bus).pc = 0xFFFFFFF0#32 ∧
    (∀ i, readReg (State.construct m bus) i = 0#32) ∧
    (∀ k (hk : k < 31), (State.construct m bus).gpr[k] = 0#32) ∧
    (State.construct m bus).psw = ⟨false, false, false, false, false, false, false, false, false, false, false, false,
      true, 0#4⟩ ∧
    statusSnapshot (State.construct m bus) = 0x00008000#32 ∧
    (State.construct m bus).cycles = 0 ∧ (State.construct m bus).fault = none ∧ (State.construct m bus).bus = bus ∧
    (State.construct m bus).opcodeMap = m ∧
    (∃ rom, bus.regions[0]? = some rom ∧ ∀ k (hk : k < image.length), rom.store.read k = image[k]) ∧
    (∀ (j : Nat) (p : RegionParam), extra[j]? = some p → ∃ r, bus.regions[j + 1]? = some r ∧
      ∀ k (hk : k < p.bytes.length), r.store.read k = p.bytes[k])

/-- The invariant holds of every core constructed with a well-formed opcode map against a constructed bus, and of the
model's reset state, which holds the default map (R85; five of its numbers are general knowledge, GK5, log 8). The image
of `State.reset` is the model's choice (log 3), and so is it that no construction refuses another map (log 24). -/
def Obligations.ConstructedStateHasTheInvariant : Prop :=
  (∀ (m : OpcodeMap) (image : List Byte) (extra : List RegionParam) (bus : Bus), m.WellFormed →
    constructBus image extra = .ok bus → (State.construct m bus).Inv) ∧ State.reset.Inv ∧ State.reset.opcodeMap = defaultOpcodeMap

/-! ### Invariants of the machine -/

/-- Every step keeps the invariant: the region table stays one that R51 admits, every store stays in canonical form, so
that no write leaves its region (R51, R56), and the opcode map stays well-formed. -/
def Obligations.EveryStepKeepsTheInvariant : Prop :=
  ∀ s t : State, s.Inv → step s = .next t → t.Inv

/-- R8, R20, R36, R48: no step changes the opcode map, the region layout or a read-only region's bytes, or where an
address lies. -/
def Obligations.LayoutAndReadOnlyBytesNeverChange : Prop :=
  ∀ s t : State, step s = .next t →
    t.opcodeMap = s.opcodeMap ∧ t.bus.layout = s.bus.layout ∧
    (∀ (k : Nat) (r : Region), s.bus.regions[k]? = some r → r.cap = .readOnly → t.bus.regions[k]? = some r) ∧
    (∀ a : Word, location t.bus a = location s.bus a)
end

