-- ==== Sys2Proof/Laws/Memory.lean ====
section
/-! SUPPORT. Backing bytes: reading after writing, and that every operation keeps the canonical form. -/

namespace Sys2Proof.Machine

open Sys2Proof

@[simp] theorem Memory.read_nil (k : Nat) : Memory.read [] k = unlistedByte := rfl

@[simp] theorem Memory.read_cons (a : Nat) (b : Byte) (m : Memory) (k : Nat) :
    Memory.read ((a, b) :: m) k = if a = k then b else m.read k := rfl

/-- The canonical form of a memory with a first entry, clause by clause. -/
theorem Memory.wfFrom_cons {first size a : Nat} {b : Byte} {m : Memory} :
    Memory.wfFrom first size ((a, b) :: m) = true ↔
      first ≤ a ∧ a < size ∧ b ≠ unlistedByte ∧ Memory.wfFrom (a + 1) size m = true := by
  simp [Memory.wfFrom, and_assoc]

/-- The bound below may be lowered. -/
theorem Memory.wfFrom_mono {first first' size : Nat} {m : Memory} (hle : first' ≤ first)
    (h : Memory.wfFrom first size m = true) : Memory.wfFrom first' size m = true := by
  cases m with
  | nil => rfl
  | cons c m =>
    obtain ⟨a, b⟩ := c
    rw [Memory.wfFrom_cons] at h ⊢
    exact ⟨by omega, h.2⟩

/-- Below its first offset a canonical memory lists nothing. -/
theorem Memory.read_below {first size k : Nat} {m : Memory} (h : Memory.wfFrom first size m = true) (hk : k < first) :
    m.read k = unlistedByte := by
  induction m generalizing first with
  | nil => rfl
  | cons c m ih =>
    obtain ⟨a, b⟩ := c
    rw [Memory.wfFrom_cons] at h
    rw [Memory.read_cons, if_neg (by omega)]
    exact ih h.2.2.2 (by omega)

/-- Reading through an entry put in front. -/
theorem Memory.read_entry (off k : Nat) (v : Byte) (m : Memory) :
    Memory.read (Memory.entry off v ++ m) k =
      if k = off ∧ v ≠ unlistedByte then v else m.read k := by
  unfold Memory.entry
  by_cases hv : v = unlistedByte
  · simp [hv]
  · by_cases hk : k = off
    · simp [hv, hk]
    · simp [hv, hk, Ne.symm hk]

/-- A byte just written reads back. -/
theorem Memory.read_write_same {first size : Nat} {m : Memory} (h : Memory.wfFrom first size m = true) (off : Nat) (v : Byte) :
    (m.write off v).read off = v := by
  induction m generalizing first with
  | nil =>
    have := Memory.read_entry off off v []
    simp only [List.append_nil] at this
    simp only [Memory.write, this, Memory.read_nil]
    split
    · rfl
    · next hn => simpa using (by simpa using hn : v = unlistedByte).symm
  | cons c m ih =>
    obtain ⟨a, b⟩ := c
    have hw := h
    rw [Memory.wfFrom_cons] at h
    have key : ∀ m' : Memory, m'.read off = unlistedByte → Memory.read (Memory.entry off v ++ m') off = v := by
      intro m' hm'
      rw [Memory.read_entry, hm']
      split
      · rfl
      · next hn => simpa using (by simpa using hn : v = unlistedByte).symm
    simp only [Memory.write]
    split
    · next hlt =>
      refine key _ ?_
      rw [Memory.read_cons, if_neg (by omega)]
      exact Memory.read_below h.2.2.2 (by omega)
    · split
      · next heq => exact key _ (Memory.read_below h.2.2.2 (by omega))
      · next hne => rw [Memory.read_cons, if_neg (by omega)]; exact ih h.2.2.2

/-- A write leaves every other offset alone. -/
theorem Memory.read_write_other (m : Memory) {off k : Nat} (v : Byte) (hk : k ≠ off) :
    (m.write off v).read k = m.read k := by
  induction m with
  | nil =>
    have := Memory.read_entry off k v []
    simp only [List.append_nil] at this
    simp [Memory.write, this, hk]
  | cons c m ih =>
    obtain ⟨a, b⟩ := c
    simp only [Memory.write]
    split
    · rw [Memory.read_entry]; simp [hk]
    · split
      · next heq => rw [Memory.read_entry]; simp [hk, Memory.read_cons, heq.symm, Ne.symm hk]
      · next => rw [Memory.read_cons, Memory.read_cons, ih]

/-- An entry put in front of a canonical memory. -/
theorem Memory.wfFrom_entry {off first size : Nat} {m : Memory} (v : Byte) (hf : first ≤ off) (ho : off < size)
    (h : Memory.wfFrom (off + 1) size m = true) : Memory.wfFrom first size (Memory.entry off v ++ m) = true := by
  unfold Memory.entry
  split
  · exact Memory.wfFrom_mono (by omega) h
  · next hv => rw [List.singleton_append, Memory.wfFrom_cons]; exact ⟨hf, ho, hv, h⟩

/-- A write keeps the canonical form. -/
theorem Memory.wfFrom_write {first size off : Nat} {m : Memory} (v : Byte) (hf : first ≤ off) (ho : off < size)
    (h : Memory.wfFrom first size m = true) : Memory.wfFrom first size (m.write off v) = true := by
  induction m generalizing first with
  | nil => simpa [Memory.write] using Memory.wfFrom_entry v hf ho (m := []) rfl
  | cons c m ih =>
    obtain ⟨a, b⟩ := c
    have hw := h
    rw [Memory.wfFrom_cons] at h
    simp only [Memory.write]
    split
    · next hlt =>
      refine Memory.wfFrom_entry v hf ho ?_
      rw [Memory.wfFrom_cons]
      exact ⟨by omega, h.2⟩
    · split
      · next heq => exact Memory.wfFrom_entry v hf ho (heq ▸ h.2.2.2)
      · next hne =>
        rw [Memory.wfFrom_cons]
        exact ⟨h.1, h.2.1, h.2.2.1, ih (by omega) h.2.2.2⟩

/-- `store[off] <- v` keeps the canonical form of a store. -/
theorem Memory.wf_write {size off : Nat} {m : Memory} (v : Byte) (ho : off < size) (h : m.wf size = true) :
    (m.write off v).wf size = true :=
  Memory.wfFrom_write v (Nat.zero_le _) ho h

/-- A byte just written to a canonical store reads back. -/
theorem Memory.read_write_wf {size : Nat} {m : Memory} (h : m.wf size = true) (off : Nat) (v : Byte) :
    (m.write off v).read off = v :=
  Memory.read_write_same h off v

/-- The backing bytes of a list are in canonical form. -/
theorem Memory.wfFrom_ofBytes (bs : List Byte) {off size : Nat} (h : off + bs.length ≤ size) :
    Memory.wfFrom off size (Memory.ofBytes off bs) = true := by
  induction bs generalizing off with
  | nil => rfl
  | cons b bs ih =>
    simp only [List.length_cons] at h
    exact Memory.wfFrom_entry b (le_refl _) (by omega) (ih (by omega))

/-- The backing bytes of a list read as the list. -/
theorem Memory.read_ofBytes (bs : List Byte) (off k : Nat) (hk : k < bs.length) :
    (Memory.ofBytes off bs).read (off + k) = bs[k] := by
  induction bs generalizing off k with
  | nil => simp at hk
  | cons b bs ih =>
    simp only [Memory.ofBytes]
    rw [Memory.read_entry]
    cases k with
    | zero =>
      simp only [Nat.add_zero, List.getElem_cons_zero, true_and]
      split
      · rfl
      · next hn =>
        have hb : b = unlistedByte := by simpa using hn
        rw [hb]
        exact Memory.read_below (size := off + 1 + bs.length) (Memory.wfFrom_ofBytes bs (le_refl _)) (by omega)
    | succ k =>
      rw [if_neg (by omega)]
      have := ih (off + 1) k (by simpa using hk)
      rw [show off + (k + 1) = off + 1 + k by omega, this, List.getElem_cons_succ]

end Sys2Proof.Machine
end

