-- ==== Sys2Proof/Laws/Bus.lean ====
section
/-! SUPPORT. The bus: what resolution finds, what each operation does, and that a write keeps the layout and the
well-formedness of the region table. -/

namespace Sys2Proof.Machine

open Sys2Proof

/-! ### Address reduction -/

theorem a27_toNat (addr : Word) : (a27 addr).toNat = addr.toNat % 2 ^ 27 := by simp [a27]

theorem a27_lt (addr : Word) : (a27 addr).toNat < 2 ^ 27 := (a27 addr).isLt

/-! ### Resolution -/

/-- What resolution finds: the first region whose window holds the address (R48). -/
theorem resolveFrom_eq_some {k : Nat} {rs : List Region} {a : PAddr} {p : Place} (h : resolveFrom k rs a = some p) :
    ∃ j, p.index = k + j ∧ rs[j]? = some p.region ∧ p.region.covers a = true ∧ p.offset = p.region.offset a ∧
      ∀ j' < j, ∀ r, rs[j']? = some r → r.covers a = false := by
  induction rs generalizing k with
  | nil => simp [resolveFrom] at h
  | cons r rs ih =>
    simp only [resolveFrom] at h
    split at h
    · next hc =>
      cases h
      exact ⟨0, rfl, rfl, hc, rfl, fun j' hj' => absurd hj' (Nat.not_lt_zero _)⟩
    · next hc =>
      obtain ⟨j, hi, hg, hcov, hoff, hmin⟩ := ih h
      refine ⟨j + 1, by omega, hg, hcov, hoff, ?_⟩
      intro j' hj' r' hr'
      cases j' with
      | zero => simp only [List.getElem?_cons_zero, Option.some.injEq] at hr'; subst hr'; simpa using hc
      | succ j' => exact hmin j' (by omega) r' (by simpa using hr')

theorem resolve_eq_some {bus : Bus} {a : PAddr} {p : Place} (h : resolve bus a = some p) :
    bus.regions[p.index]? = some p.region ∧ p.region.covers a = true ∧ p.offset = p.region.offset a ∧
      ∀ j' < p.index, ∀ r, bus.regions[j']? = some r → r.covers a = false := by
  obtain ⟨j, hi, hg, hc, ho, hm⟩ := resolveFrom_eq_some h
  rw [Nat.zero_add] at hi
  subst hi
  exact ⟨hg, hc, ho, hm⟩

/-- An address is unmapped exactly when no window holds it. -/
theorem resolveFrom_eq_none {k : Nat} {rs : List Region} {a : PAddr} :
    resolveFrom k rs a = none ↔ ∀ r ∈ rs, r.covers a = false := by
  induction rs generalizing k with
  | nil => simp [resolveFrom]
  | cons r rs ih =>
    simp only [resolveFrom]
    split
    · next hc => simp [hc]
    · next hc => rw [ih]; simp [hc]

theorem resolve_eq_none {bus : Bus} {a : PAddr} :
    resolve bus a = none ↔ ∀ r ∈ bus.regions, r.covers a = false :=
  resolveFrom_eq_none

/-- An address in the window of the table's first region resolves to it. -/
theorem resolve_head {rs : List Region} {r : Region} {a : PAddr} (hc : r.covers a = true) :
    resolve ⟨r :: rs⟩ a = some ⟨0, r, r.offset a⟩ := by
  simp [resolve, resolveFrom, hc]

/-- Two addresses that the same windows hold resolve to the same region. -/
theorem resolveFrom_congr {k : Nat} {rs : List Region} {a b : PAddr} (h : ∀ r ∈ rs, r.covers a = r.covers b) :
    resolveFrom k rs b = (resolveFrom k rs a).map fun p => ⟨p.index, p.region, p.region.offset b⟩ := by
  induction rs generalizing k with
  | nil => rfl
  | cons r rs ih =>
    simp only [resolveFrom]
    rw [← h r (by simp)]
    split
    · rfl
    · exact ih fun r' hr' => h r' (by simp [hr'])

/-! ### Reading -/

theorem readByte_resolved {bus : Bus} {addr : Word} {p : Place} (h : resolve bus (a27 addr) = some p) :
    readByte bus addr = .ok (p.region.store.read p.offset) := by
  simp [readByte, h]

theorem readByte_unmapped {bus : Bus} {addr : Word} (h : resolve bus (a27 addr) = none) :
    readByte bus addr = .error ⟨.unmappedRead, addr⟩ := by
  simp [readByte, h]

/-- Everything `read_byte` can answer (R53). -/
theorem readByte_cases (bus : Bus) (addr : Word) :
    (resolve bus (a27 addr) = none ∧ readByte bus addr = .error ⟨.unmappedRead, addr⟩) ∨
      ∃ p, resolve bus (a27 addr) = some p ∧ readByte bus addr = .ok (p.region.store.read p.offset) := by
  cases h : resolve bus (a27 addr) with
  | none => exact .inl ⟨rfl, readByte_unmapped h⟩
  | some p => exact .inr ⟨p, rfl, readByte_resolved h⟩

/-- Everything `read_halfword` can answer (R54): an unmapped read that names the caller's address, or the two bytes
of the halfword. -/
theorem readHalfword_cases (bus : Bus) (addr : Word) :
    readHalfword bus addr = .error ⟨.unmappedRead, addr⟩ ∨
      ∃ lo hi, readByte bus (halfwordAddr addr) = .ok lo ∧ readByte bus (halfwordAddr addr + 1#32) = .ok hi ∧
        readHalfword bus addr = .ok (joinBytes hi lo) := by
  unfold readHalfword
  rcases readByte_cases bus (halfwordAddr addr) with ⟨-, h⟩ | ⟨p, -, h⟩
  · exact .inl (by rw [h])
  · rcases readByte_cases bus (halfwordAddr addr + 1#32) with ⟨-, h'⟩ | ⟨q, -, h'⟩
    · exact .inl (by rw [h, h'])
    · exact .inr ⟨_, _, h, h', by rw [h, h']⟩

theorem readHalfword_of_bytes {bus : Bus} {addr : Word} {lo hi : Byte} (hl : readByte bus (halfwordAddr addr) = .ok lo)
    (hh : readByte bus (halfwordAddr addr + 1#32) = .ok hi) : readHalfword bus addr = .ok (joinBytes hi lo) := by
  simp [readHalfword, hl, hh]

/-- A failed halfword read is an unmapped read at the caller's address. -/
theorem readHalfword_error {bus : Bus} {addr : Word} {b : BusError} (h : readHalfword bus addr = .error b) :
    b = ⟨.unmappedRead, addr⟩ := by
  rcases readHalfword_cases bus addr with h' | ⟨_, _, -, -, h'⟩
  · rw [h] at h'; exact Except.error.inj h'
  · rw [h] at h'; cases h'

/-! ### Changing one region's bytes -/

theorem resolveFrom_modify (k index : Nat) (rs : List Region) (f : Memory → Memory) (a : PAddr) :
    resolveFrom k (rs.modify index fun r => { r with store := f r.store }) a =
      (resolveFrom k rs a).map fun p =>
        if p.index = k + index then ⟨p.index, { p.region with store := f p.region.store }, p.offset⟩ else p := by
  induction rs generalizing k index with
  | nil => simp [resolveFrom]
  | cons r rs ih =>
    cases index with
    | zero =>
      simp only [List.modify_zero_cons, resolveFrom]
      rw [show Region.covers { r with store := f r.store } a = r.covers a from rfl]
      split
      · simp; rfl
      · cases h : resolveFrom (k + 1) rs a with
        | none => rfl
        | some p =>
          obtain ⟨j, hi, -⟩ := resolveFrom_eq_some h
          simp only [Option.map_some]
          rw [if_neg (by omega)]
    | succ index =>
      simp only [List.modify_succ_cons, resolveFrom]
      split
      · simp
      · rw [ih, show k + 1 + index = k + (index + 1) by omega]

/-- Resolution after one region's bytes were changed: the same place, its bytes changed if it is that region. -/
theorem resolve_updateStore (bus : Bus) (index : Nat) (f : Memory → Memory) (a : PAddr) :
    resolve (updateStore bus index f) a =
      (resolve bus a).map fun p =>
        if p.index = index then ⟨p.index, { p.region with store := f p.region.store }, p.offset⟩ else p := by
  have := resolveFrom_modify 0 index bus.regions f a
  simpa [resolve, updateStore] using this

/-- No write moves an address to another location. -/
theorem location_updateStore (bus : Bus) (index : Nat) (f : Memory → Memory) (addr : Word) :
    location (updateStore bus index f) addr = location bus addr := by
  simp only [location, resolve_updateStore, Option.map_map]
  cases resolve bus (a27 addr) with
  | none => rfl
  | some p => simp only [Option.map_some, Function.comp]; split <;> rfl

/-- What a byte reads as after one region's bytes were changed. -/
theorem readByte_updateStore (bus : Bus) (index : Nat) (f : Memory → Memory) (addr : Word) :
    readByte (updateStore bus index f) addr =
      match resolve bus (a27 addr) with
      | none => .error ⟨.unmappedRead, addr⟩
      | some p => .ok (if p.index = index then (f p.region.store).read p.offset else p.region.store.read p.offset) := by
  simp only [readByte, resolve_updateStore]
  cases resolve bus (a27 addr) with
  | none => rfl
  | some p => simp only [Option.map_some]; split <;> simp_all

/-! ### Writing -/

/-- Everything a write can answer (R55, R56). -/
theorem writeThrough_cases (bus : Bus) (addr target : Word) (f : Nat → Memory → Memory) :
    (resolve bus (a27 target) = none ∧ writeThrough bus addr target f = .error ⟨.unmappedWrite, addr⟩) ∨
    (∃ p, resolve bus (a27 target) = some p ∧ p.region.cap = .readOnly ∧
      writeThrough bus addr target f = .error ⟨.readOnlyWrite, addr⟩) ∨
    (∃ p, resolve bus (a27 target) = some p ∧ p.region.cap = .readWrite ∧
      writeThrough bus addr target f = .ok (updateStore bus p.index (f p.offset))) := by
  unfold writeThrough
  cases h : resolve bus (a27 target) with
  | none => exact .inl ⟨rfl, rfl⟩
  | some p =>
    cases hc : p.region.cap with
    | readOnly => exact .inr (.inl ⟨p, rfl, hc, by simp [hc]⟩)
    | readWrite => exact .inr (.inr ⟨p, rfl, hc, by simp [hc]⟩)

/-- A write that succeeds found a read-write region and changed its bytes, and nothing else. -/
theorem writeThrough_ok {bus b : Bus} {addr target : Word} {f : Nat → Memory → Memory}
    (h : writeThrough bus addr target f = .ok b) :
    ∃ p, resolve bus (a27 target) = some p ∧ p.region.cap = .readWrite ∧ b = updateStore bus p.index (f p.offset) := by
  rcases writeThrough_cases bus addr target f with ⟨-, h'⟩ | ⟨p, -, -, h'⟩ | ⟨p, hp, hc, h'⟩
  · rw [h] at h'; cases h'
  · rw [h] at h'; cases h'
  · rw [h] at h'; exact ⟨p, hp, hc, Except.ok.inj h'⟩

/-- What a word write leaves at each offset of the store (R56). -/
theorem read_storeWord_other (m : Memory) {off k : Nat} (v : Word) (h : k < off ∨ off + 3 < k) :
    (storeWord off v m).read k = m.read k := by
  unfold storeWord
  rw [Memory.read_write_other _ _ (by omega), Memory.read_write_other _ _ (by omega),
    Memory.read_write_other _ _ (by omega), Memory.read_write_other _ _ (by omega)]

/-- A word write keeps the canonical form. -/
theorem wf_storeWord {size off : Nat} {m : Memory} (v : Word) (ho : off + 3 < size) (h : m.wf size = true) :
    (storeWord off v m).wf size = true :=
  Memory.wf_write _ (by omega) (Memory.wf_write _ (by omega) (Memory.wf_write _ (by omega) (Memory.wf_write _ (by omega) h)))

/-- The four bytes of a word just written (R56). -/
theorem read_storeWord {size off : Nat} {m : Memory} (v : Word) (ho : off + 3 < size) (h : m.wf size = true) :
    (storeWord off v m).read off = v.extractLsb' 0 8 ∧
    (storeWord off v m).read (off + 1) = v.extractLsb' 8 8 ∧
    (storeWord off v m).read (off + 2) = v.extractLsb' 16 8 ∧
    (storeWord off v m).read (off + 3) = v.extractLsb' 24 8 := by
  have h1 := Memory.wf_write (off := off) (v.extractLsb' 0 8) (by omega) h
  have h2 := Memory.wf_write (off := off + 1) (v.extractLsb' 8 8) (by omega) h1
  have h3 := Memory.wf_write (off := off + 2) (v.extractLsb' 16 8) (by omega) h2
  unfold storeWord
  refine ⟨?_, ?_, ?_, ?_⟩
  · rw [Memory.read_write_other _ _ (by omega), Memory.read_write_other _ _ (by omega),
      Memory.read_write_other _ _ (by omega), Memory.read_write_wf h]
  · rw [Memory.read_write_other _ _ (by omega), Memory.read_write_other _ _ (by omega), Memory.read_write_wf h1]
  · rw [Memory.read_write_other _ _ (by omega), Memory.read_write_wf h2]
  · rw [Memory.read_write_wf h3]

/-! ### Well-formed tables -/

theorem isPowerOfTwo_iff {n : Nat} : isPowerOfTwo n = true ↔ ∃ k, n = 2 ^ k := by
  unfold isPowerOfTwo
  rw [beq_iff_eq]
  constructor
  · intro h; exact ⟨_, h⟩
  · rintro ⟨k, rfl⟩; rw [Nat.log2_two_pow]

/-- An offset lies in the store. -/
theorem Region.offset_lt {r : Region} (a : PAddr) (h : 0 < r.size) : r.offset a < r.size := by
  unfold Region.offset
  have := @Nat.and_le_right (a.toNat - r.lo) (r.size - 1)
  omega

/-- Masking with size - 1 is the remainder, for a power of two (R48, "mirroring" of R13). -/
theorem Region.offset_eq_mod {r : Region} (a : PAddr) (h : isPowerOfTwo r.size = true) :
    r.offset a = (a.toNat - r.lo) % r.size := by
  obtain ⟨k, hk⟩ := isPowerOfTwo_iff.1 h
  unfold Region.offset
  rw [hk, Nat.and_two_pow_sub_one_eq_mod]

theorem Region.covers_iff {r : Region} {a : PAddr} : r.covers a = true ↔ r.lo ≤ a.toNat ∧ a.toNat ≤ r.hi := by
  simp [Region.covers]

theorem Region.romWf_iff {r : Region} : r.romWf = true ↔
    r.lo = Config.romLo ∧ r.hi = Config.romHi ∧ r.cap = .readOnly ∧ 1 ≤ r.size ∧ r.size ≤ Config.maxImageBytes ∧
      isPowerOfTwo r.size = true ∧ r.store.wf r.size = true := by
  simp [Region.romWf, and_assoc]

theorem extraShapeWf_iff {lo hi size : Nat} : extraShapeWf lo hi size = true ↔
    lo ≤ hi ∧ hi ≤ Config.lastAddress ∧ isPowerOfTwo size = true ∧ 4 ≤ size ∧ lo % 4 = 0 ∧ (hi + 1) % 4 = 0 := by
  simp [extraShapeWf, and_assoc]

theorem Region.extraWf_iff {r : Region} : r.extraWf = true ↔
    extraShapeWf r.lo r.hi r.size = true ∧ r.store.wf r.size = true := by
  simp [Region.extraWf]

theorem Bus.wf_cons {rom : Region} {extra : List Region} :
    Bus.wf ⟨rom :: extra⟩ = true ↔ rom.romWf = true ∧ ∀ r ∈ extra, r.extraWf = true := by
  simp [Bus.wf]

/-- A well-formed table has a ROM region first. -/
theorem Bus.wf_head {bus : Bus} (h : bus.wf = true) :
    ∃ rom extra, bus.regions = rom :: extra ∧ rom.romWf = true ∧ ∀ r ∈ extra, r.extraWf = true := by
  obtain ⟨rs⟩ := bus
  cases rs with
  | nil => simp [Bus.wf] at h
  | cons rom extra => exact ⟨rom, extra, rfl, Bus.wf_cons.1 h⟩

/-- Every region of a well-formed table: its window is halfword-aligned, its size a power of two, its bytes in
canonical form. -/
theorem Bus.wf_region {bus : Bus} (h : bus.wf = true) {k : Nat} {r : Region} (hr : bus.regions[k]? = some r) :
    r.lo % 4 = 0 ∧ (r.hi + 1) % 4 = 0 ∧ 0 < r.size ∧ isPowerOfTwo r.size = true ∧ r.store.wf r.size = true := by
  obtain ⟨rom, extra, hrs, hrom, hextra⟩ := Bus.wf_head h
  rw [hrs] at hr
  cases k with
  | zero =>
    simp only [List.getElem?_cons_zero, Option.some.injEq] at hr
    subst hr
    obtain ⟨h1, h2, -, h4, -, h6, h7⟩ := Region.romWf_iff.1 hrom
    exact ⟨by rw [h1]; rfl, by rw [h2]; rfl, h4, h6, h7⟩
  | succ k =>
    have hm : r ∈ extra := List.mem_of_getElem? (by simpa using hr)
    obtain ⟨hs, hw⟩ := Region.extraWf_iff.1 (hextra r hm)
    obtain ⟨-, -, h3, h4, h5, h6⟩ := extraShapeWf_iff.1 hs
    exact ⟨h5, h6, by omega, h3, hw⟩

/-- A read-write region of a well-formed table is a region of EXTRA_REGIONS. -/
theorem Bus.wf_readWrite {bus : Bus} (h : bus.wf = true) {k : Nat} {r : Region} (hr : bus.regions[k]? = some r)
    (hc : r.cap = .readWrite) : r.extraWf = true := by
  obtain ⟨rom, extra, hrs, hrom, hextra⟩ := Bus.wf_head h
  rw [hrs] at hr
  cases k with
  | zero =>
    simp only [List.getElem?_cons_zero, Option.some.injEq] at hr
    subst hr
    obtain ⟨-, -, h3, -⟩ := Region.romWf_iff.1 hrom
    rw [h3] at hc; cases hc
  | succ k => exact hextra r (List.mem_of_getElem? (by simpa using hr))

/-- Changing a read-write region's bytes keeps the table well-formed, where the change keeps the bytes so. -/
theorem Bus.wf_updateStore {bus : Bus} (h : bus.wf = true) {k : Nat} {r : Region} (hr : bus.regions[k]? = some r)
    (hc : r.cap = .readWrite) {f : Memory → Memory} (hf : (f r.store).wf r.size = true) :
    (updateStore bus k f).wf = true := by
  obtain ⟨rom, extra, hrs, hrom, hextra⟩ := Bus.wf_head h
  have hw := Bus.wf_readWrite h hr hc
  obtain ⟨rs⟩ := bus
  simp only at hrs hr
  subst hrs
  cases k with
  | zero =>
    simp only [List.getElem?_cons_zero, Option.some.injEq] at hr
    subst hr
    obtain ⟨-, -, h3, -⟩ := Region.romWf_iff.1 hrom
    rw [h3] at hc; cases hc
  | succ k =>
    simp only [updateStore, List.modify_succ_cons]
    rw [Bus.wf_cons]
    refine ⟨hrom, fun x hx => ?_⟩
    obtain ⟨j, hj⟩ := List.mem_iff_getElem?.1 hx
    rw [List.getElem?_modify] at hj
    simp only [List.getElem?_cons_succ] at hr
    by_cases hkj : k = j
    · subst hkj
      rw [hr] at hj
      simp only [if_true, Option.map_eq_map, Option.map_some, Option.some.injEq] at hj
      subst hj
      exact Region.extraWf_iff.2 ⟨(Region.extraWf_iff.1 hw).1, hf⟩
    · simp only [if_neg hkj] at hj
      exact hextra x (List.mem_of_getElem? (by simpa using hj))

/-- The word address is a multiple of 4, and no bits but 1..0 are lost (R60). -/
theorem wordAddr_toNat (addr : Word) : (wordAddr addr).toNat = addr.toNat / 4 * 4 := by
  unfold wordAddr
  rw [BitVec.toNat_and]
  have h : (0xFFFFFFFC#32).toNat = (2 ^ 30 - 1) <<< 2 := by decide
  apply Nat.eq_of_testBit_eq
  intro i
  rw [Nat.testBit_and, h]
  have he : addr.toNat / 4 * 4 = (addr.toNat >>> 2) <<< 2 := by
    rw [Nat.shiftRight_eq_div_pow, Nat.shiftLeft_eq]
  rw [he, Nat.testBit_shiftLeft, Nat.testBit_shiftLeft, Nat.testBit_shiftRight, Nat.testBit_two_pow_sub_one]
  by_cases hi : 2 ≤ i
  · simp only [hi, decide_true, Bool.true_and]
    rw [show 2 + (i - 2) = i by omega]
    by_cases hb : i - 2 < 30
    · simp [hb]
    · have hlt : addr.toNat.testBit i = false :=
        Nat.testBit_lt_two_pow (lt_of_lt_of_le addr.isLt (Nat.pow_le_pow_right (by omega) (by omega)))
      simp [hlt]
  · simp [hi]

/-- The halfword address is even, and no bit but 0 is lost (R54, R60). -/
theorem halfwordAddr_toNat (addr : Word) : (halfwordAddr addr).toNat = addr.toNat / 2 * 2 := by
  unfold halfwordAddr
  rw [BitVec.toNat_and]
  have h : (0xFFFFFFFE#32).toNat = (2 ^ 31 - 1) <<< 1 := by decide
  apply Nat.eq_of_testBit_eq
  intro i
  rw [Nat.testBit_and, h]
  have he : addr.toNat / 2 * 2 = (addr.toNat >>> 1) <<< 1 := by
    rw [Nat.shiftRight_eq_div_pow, Nat.shiftLeft_eq]
  rw [he, Nat.testBit_shiftLeft, Nat.testBit_shiftLeft, Nat.testBit_shiftRight, Nat.testBit_two_pow_sub_one]
  by_cases hi : 1 ≤ i
  · simp only [hi, decide_true, Bool.true_and]
    rw [show 1 + (i - 1) = i by omega]
    by_cases hb : i - 1 < 31
    · simp [hb]
    · have hlt : addr.toNat.testBit i = false :=
        Nat.testBit_lt_two_pow (lt_of_lt_of_le addr.isLt (Nat.pow_le_pow_right (by omega) (by omega)))
      simp [hlt]
  · simp [hi]

/-- In a region of EXTRA_REGIONS the offset of a word address is a multiple of 4 with three more bytes behind it in
the store: a word write is all-or-nothing (R56). -/
theorem word_offset {r : Region} (hw : r.extraWf = true) {addr : Word} (hc : r.covers (a27 (wordAddr addr)) = true) :
    r.offset (a27 (wordAddr addr)) % 4 = 0 ∧ r.offset (a27 (wordAddr addr)) + 3 < r.size := by
  obtain ⟨-, -, h3, h4, h5, -⟩ := extraShapeWf_iff.1 (Region.extraWf_iff.1 hw).1
  rw [Region.offset_eq_mod _ h3]
  obtain ⟨k, hk⟩ := isPowerOfTwo_iff.1 h3
  have hk2 : 2 ≤ k := by
    by_contra hlt
    have : k = 0 ∨ k = 1 := by omega
    rcases this with rfl | rfl <;> simp_all
  obtain ⟨j, rfl⟩ := Nat.exists_eq_add_of_le hk2
  have hsize : r.size = 4 * 2 ^ j := by rw [hk, Nat.pow_add]
  have ha : (a27 (wordAddr addr)).toNat % 4 = 0 := by rw [a27_toNat, wordAddr_toNat]; omega
  have hlo := (Region.covers_iff.1 hc).1
  have hd : ((a27 (wordAddr addr)).toNat - r.lo) % 4 = 0 := by omega
  have hm : ((a27 (wordAddr addr)).toNat - r.lo) % r.size % 4 = 0 := by
    rw [hsize, Nat.mod_mul_right_mod]; exact hd
  have hlt := Nat.mod_lt ((a27 (wordAddr addr)).toNat - r.lo) (show 0 < r.size by omega)
  refine ⟨hm, ?_⟩
  omega

/-! ### Neighbouring bytes -/

/-- Where the bytes of the addressed region's store at an address's own offset are left alone, the address reads as
before. -/
theorem readByte_updateStore_of_eq {bus : Bus} {p : Place} {target : PAddr} (hp : resolve bus target = some p)
    (f : Memory → Memory) (a : Word)
    (h : ∀ k, location bus a = some (p.index, k) → (f p.region.store).read k = p.region.store.read k) :
    readByte (updateStore bus p.index f) a = readByte bus a := by
  rw [readByte_updateStore]
  cases hq : resolve bus (a27 a) with
  | none => simp [readByte, hq]
  | some q =>
    simp only [readByte, hq]
    by_cases hi : q.index = p.index
    · have hr : q.region = p.region := by
        have := (resolve_eq_some hq).1
        rw [hi, (resolve_eq_some hp).1] at this
        exact (Option.some.inj this).symm
      simp only [hi, if_true, hr]
      rw [h q.offset (by simp [location, hq, hi])]
    · simp [hi]

/-- Two addresses of one location resolve to one place. -/
theorem resolve_of_location_eq {bus : Bus} {a b : Word} {p : Place} (hp : resolve bus (a27 b) = some p) (h : location bus a = location bus b) :
    ∃ q, resolve bus (a27 a) = some q ∧ q.index = p.index ∧ q.offset = p.offset ∧ q.region = p.region := by
  simp only [location, hp] at h
  cases hq : resolve bus (a27 a) with
  | none => simp [hq] at h
  | some q =>
    simp [hq] at h
    refine ⟨q, rfl, h.1, h.2, ?_⟩
    have := (resolve_eq_some hq).1
    rw [h.1, (resolve_eq_some hp).1] at this
    exact (Option.some.inj this).symm

/-- The four bytes of an aligned word resolve to one region (R56). -/
theorem word_resolve {bus : Bus} (hw : bus.wf = true) {addr : Word} {p : Place}
    (hp : resolve bus (a27 (wordAddr addr)) = some p) {k : Nat} (hk : k < 4) :
    resolve bus (a27 (wordAddr addr + BitVec.ofNat 32 k)) = some ⟨p.index, p.region, p.region.offset (a27 (wordAddr addr + BitVec.ofNat 32 k))⟩ := by
  have hn : (a27 (wordAddr addr + BitVec.ofNat 32 k)).toNat = (a27 (wordAddr addr)).toNat + k := by
    rw [a27_toNat, a27_toNat, BitVec.toNat_add, wordAddr_toNat, BitVec.toNat_ofNat]; have := addr.isLt; omega
  have h4 : (a27 (wordAddr addr)).toNat % 4 = 0 := by rw [a27_toNat, wordAddr_toNat]; omega
  have := resolveFrom_congr (k := 0) (rs := bus.regions) (a := a27 (wordAddr addr)) (b := a27 (wordAddr addr + BitVec.ofNat 32 k)) ?_
  · unfold resolve at hp ⊢
    rw [this, hp]; rfl
  · intro r hr
    obtain ⟨j, hj⟩ := List.mem_iff_getElem?.1 hr
    obtain ⟨h1, h2, -⟩ := Bus.wf_region hw hj
    rw [Bool.eq_iff_iff, Region.covers_iff, Region.covers_iff, hn]
    omega

/-- In a read-write region the four bytes of an aligned word stand side by side in the store (R56). -/
theorem word_offset_add {bus : Bus} (hw : bus.wf = true) {addr : Word} {p : Place}
    (hp : resolve bus (a27 (wordAddr addr)) = some p) (hc : p.region.cap = .readWrite) {k : Nat} (hk : k < 4) :
    p.region.offset (a27 (wordAddr addr + BitVec.ofNat 32 k)) = p.offset + k := by
  obtain ⟨hr, hcov, hoff, -⟩ := resolve_eq_some hp
  have hx := Bus.wf_readWrite hw hr hc
  have hpw := (extraShapeWf_iff.1 (Region.extraWf_iff.1 hx).1)
  have hwo := word_offset hx hcov
  have hn : (a27 (wordAddr addr + BitVec.ofNat 32 k)).toNat = (a27 (wordAddr addr)).toNat + k := by
    rw [a27_toNat, a27_toNat, BitVec.toNat_add, wordAddr_toNat, BitVec.toNat_ofNat]; have := addr.isLt; omega
  rw [hoff]
  rw [Region.offset_eq_mod _ hpw.2.2.1] at hwo ⊢
  rw [Region.offset_eq_mod _ hpw.2.2.1, hn]
  have hlo := (Region.covers_iff.1 hcov).1
  rw [show (a27 (wordAddr addr)).toNat + k - p.region.lo = ((a27 (wordAddr addr)).toNat - p.region.lo) + k by omega]
  generalize (a27 (wordAddr addr)).toNat - p.region.lo = x at *
  rw [Nat.add_mod, Nat.mod_eq_of_lt (a := k) (by omega), Nat.mod_eq_of_lt (by omega)]

/-- The two bytes of a halfword resolve to one region (R54). -/
theorem halfword_resolve {bus : Bus} (hw : bus.wf = true) {addr : Word} {p : Place}
    (hp : resolve bus (a27 (halfwordAddr addr)) = some p) :
    resolve bus (a27 (halfwordAddr addr + 1#32)) = some ⟨p.index, p.region, p.region.offset (a27 (halfwordAddr addr + 1#32))⟩ := by
  have hn : (a27 (halfwordAddr addr + 1#32)).toNat = (a27 (halfwordAddr addr)).toNat + 1 := by
    rw [a27_toNat, a27_toNat, BitVec.toNat_add, halfwordAddr_toNat]; have := addr.isLt; simp; omega
  have h4 : (a27 (halfwordAddr addr)).toNat % 2 = 0 := by rw [a27_toNat, halfwordAddr_toNat]; omega
  have := resolveFrom_congr (k := 0) (rs := bus.regions) (a := a27 (halfwordAddr addr)) (b := a27 (halfwordAddr addr + 1#32)) ?_
  · unfold resolve at hp ⊢
    rw [this, hp]; rfl
  · intro r hr
    obtain ⟨j, hj⟩ := List.mem_iff_getElem?.1 hr
    obtain ⟨h1, h2, -⟩ := Bus.wf_region hw hj
    rw [Bool.eq_iff_iff, Region.covers_iff, Region.covers_iff, hn]
    omega

/-! ### Every bus operation keeps the table well-formed -/

theorem writeByte_wf {bus b : Bus} {addr : Word} {v : Byte} (h : bus.wf = true) (hw : writeByte bus addr v = .ok b) :
    b.wf = true := by
  obtain ⟨p, hp, hc, rfl⟩ := writeThrough_ok hw
  obtain ⟨hr, hcov, hoff, -⟩ := resolve_eq_some hp
  obtain ⟨-, -, hpos, -, hst⟩ := Bus.wf_region h hr
  exact Bus.wf_updateStore h hr hc (Memory.wf_write v (hoff ▸ Region.offset_lt _ hpos) hst)

theorem writeWord_wf {bus b : Bus} {addr v : Word} (h : bus.wf = true) (hw : writeWord bus addr v = .ok b) :
    b.wf = true := by
  obtain ⟨p, hp, hc, rfl⟩ := writeThrough_ok hw
  obtain ⟨hr, hcov, hoff, -⟩ := resolve_eq_some hp
  obtain ⟨-, -, -, -, hst⟩ := Bus.wf_region h hr
  have hword := word_offset (Bus.wf_readWrite h hr hc) hcov
  exact Bus.wf_updateStore h hr hc (wf_storeWord v (hoff ▸ hword.2) hst)

/-- A constructed bus is well-formed (R51). -/
theorem constructBus_wf {image : List Byte} {extra : List RegionParam} {bus : Bus}
    (h : constructBus image extra = .ok bus) : bus.wf = true := by
  unfold constructBus at h
  split at h
  · next hok =>
    cases h
    simp only [Bool.and_eq_true, imageWf, decide_eq_true_eq, List.all_eq_true, RegionParam.wf, beq_iff_eq] at hok
    obtain ⟨⟨⟨h1, h2⟩, h3⟩, hx⟩ := hok
    rw [Bus.wf_cons]
    constructor
    · exact Region.romWf_iff.2 ⟨rfl, rfl, rfl, h1, h2, h3, Memory.wfFrom_ofBytes image (by simp [romRegion])⟩
    · intro r hr
      obtain ⟨p, hp, rfl⟩ := List.mem_map.1 hr
      obtain ⟨hshape, hlen⟩ := hx p hp
      exact Region.extraWf_iff.2 ⟨hshape, Memory.wfFrom_ofBytes p.bytes (by simp [RegionParam.toRegion, hlen])⟩
  · cases h

end Sys2Proof.Machine
end

