-- ==== Sys2Proof/Laws/Decode.lean ====
section
/-! SUPPORT. The decoder: which opcode it answers, and the fields of a packed unit. -/

namespace Sys2Proof

/-! ### Fields of a packed unit (R77 to R80, R94) -/

@[simp] theorem opcodeField_packUnit (opc : OpcodeNumber) (h l : BitVec 5) : opcodeField (packUnit opc h l) = opc := by
  apply BitVec.eq_of_getLsbD_eq
  intro i hi
  simp only [opcodeField, packUnit, BitVec.getLsbD_extractLsb', BitVec.getLsbD_append, hi, decide_true, Bool.true_and]
  rw [if_neg (by omega), if_neg (by omega)]
  congr 1
  omega

@[simp] theorem reg2Field_packUnit (opc : OpcodeNumber) (h l : BitVec 5) : reg2Field (packUnit opc h l) = h := by
  apply BitVec.eq_of_getLsbD_eq
  intro i hi
  simp only [reg2Field, packUnit, BitVec.getLsbD_extractLsb', BitVec.getLsbD_append, hi, decide_true, Bool.true_and]
  rw [if_neg (by omega), if_pos (by omega)]
  congr 1
  omega

@[simp] theorem reg1Field_packUnit (opc : OpcodeNumber) (h l : BitVec 5) : reg1Field (packUnit opc h l) = l := by
  apply BitVec.eq_of_getLsbD_eq
  intro i hi
  simp only [reg1Field, packUnit, BitVec.getLsbD_extractLsb', BitVec.getLsbD_append, hi, decide_true, Bool.true_and]
  rw [if_pos (by omega)]
  congr 1
  omega

@[simp] theorem imm5Field_packUnit (opc : OpcodeNumber) (h l : BitVec 5) : imm5Field (packUnit opc h l) = l :=
  reg1Field_packUnit opc h l

/-- A unit is its three fields. -/
theorem packUnit_fields (u : Halfword) : packUnit (opcodeField u) (reg2Field u) (reg1Field u) = u := by
  apply BitVec.eq_of_getLsbD_eq
  intro i hi
  simp only [packUnit, opcodeField, reg2Field, reg1Field, BitVec.getLsbD_append, BitVec.getLsbD_extractLsb']
  by_cases h1 : i < 5
  · simp [h1]
  · by_cases h2 : i - 5 < 5
    · simp only [h1, h2, if_true, if_false, decide_true, Bool.true_and]; congr 1; omega
    · simp only [h1, h2, if_false, show i - 5 - 5 < 6 by omega, decide_true, Bool.true_and]; congr 1; omega

/-! ### Bytes of a unit -/

@[simp] theorem joinBytes_bytes (u : Halfword) : joinBytes (highByte u) (lowByte u) = u := by
  apply BitVec.eq_of_getLsbD_eq
  intro i hi
  simp only [joinBytes, highByte, lowByte, BitVec.getLsbD_append, BitVec.getLsbD_extractLsb']
  by_cases h : i < 8
  · simp [h]
  · simp only [h, if_false, show i - 8 < 8 by omega, decide_true, Bool.true_and]; congr 1; omega

@[simp] theorem lowByte_joinBytes (hi lo : Byte) : lowByte (joinBytes hi lo) = lo := by
  apply BitVec.eq_of_getLsbD_eq
  intro i h
  simp only [lowByte, joinBytes, BitVec.getLsbD_extractLsb', BitVec.getLsbD_append, Nat.zero_add, h, decide_true,
    Bool.true_and, if_true]

@[simp] theorem highByte_joinBytes (hi lo : Byte) : highByte (joinBytes hi lo) = hi := by
  apply BitVec.eq_of_getLsbD_eq
  intro i h
  simp only [highByte, joinBytes, BitVec.getLsbD_extractLsb', BitVec.getLsbD_append, h, decide_true, Bool.true_and]
  rw [if_neg (by omega), Nat.add_sub_cancel_left]

/-! ### The decoder (R83) -/

theorem Opcode.mem_all (op : Opcode) : op ∈ Opcode.all := by cases op <;> simp [Opcode.all]

/-- In a well-formed map a number names one opcode. -/
theorem OpcodeMap.WellFormed.number_inj {m : OpcodeMap} (h : m.WellFormed) {a b : Opcode}
    (hab : m.number a = m.number b) : a = b :=
  List.inj_on_of_nodup_map h (Opcode.mem_all a) (Opcode.mem_all b) hab

/-- Everything `decode` can answer: an opcode whose number stands in bits 15..10, or the error with the whole unit
when no opcode has that number (R83). -/
theorem decodeWith_cases (m : OpcodeMap) (u1 : Halfword) :
    (∃ op, m.number op = opcodeField u1 ∧ decodeWith m u1 = .ok op) ∨
      ((∀ op, m.number op ≠ opcodeField u1) ∧ decodeWith m u1 = .error ⟨u1⟩) := by
  unfold decodeWith
  cases h : Opcode.all.find? (fun op => m.number op == opcodeField u1) with
  | some op => exact .inl ⟨op, by simpa using List.find?_some h, rfl⟩
  | none =>
    refine .inr ⟨fun op hop => ?_, rfl⟩
    have := List.find?_eq_none.1 h op (Opcode.mem_all op)
    simp [hop] at this

/-- Under a well-formed map a unit whose bits 15..10 are an opcode's number decodes to that opcode. -/
theorem decodeWith_of_number {m : OpcodeMap} (hm : m.WellFormed) {u1 : Halfword} {op : Opcode}
    (h : m.number op = opcodeField u1) : decodeWith m u1 = .ok op := by
  rcases decodeWith_cases m u1 with ⟨op', h', hd⟩ | ⟨hno, -⟩
  · rw [hd, hm.number_inj (h'.trans h.symm)]
  · exact absurd h (hno op)

/-- What a decoded opcode says of the unit. -/
theorem decodeWith_ok {m : OpcodeMap} {u1 : Halfword} {op : Opcode} (h : decodeWith m u1 = .ok op) :
    m.number op = opcodeField u1 := by
  rcases decodeWith_cases m u1 with ⟨op', h', hd⟩ | ⟨-, hd⟩
  · rw [h] at hd; cases hd; exact h'
  · rw [h] at hd; cases hd

theorem decodeWith_error {m : OpcodeMap} {u1 : Halfword} {e : DecodeError} (h : decodeWith m u1 = .error e) :
    e = ⟨u1⟩ ∧ ∀ op, m.number op ≠ opcodeField u1 := by
  rcases decodeWith_cases m u1 with ⟨op', h', hd⟩ | ⟨hno, hd⟩
  · rw [h] at hd; cases hd
  · rw [h] at hd; cases hd; exact ⟨rfl, hno⟩

/-- The default map gives each opcode a number of its own (R85). -/
theorem defaultOpcodeMap_wellFormed : defaultOpcodeMap.WellFormed := by decide

@[simp] theorem opcodeOf_assemble (op : Opcode) (u1 u2 : Halfword) : opcodeOf (assemble op u1 u2) = op := by
  cases op <;> rfl

/-- The bytes of a list of units, unit by unit. -/
@[simp] theorem unitBytes_nil : unitBytes [] = [] := rfl
@[simp] theorem unitBytes_cons (u : Halfword) (us : List Halfword) :
    unitBytes (u :: us) = lowByte u :: highByte u :: unitBytes us := rfl

/-- Decoding a list of bytes whose first unit is known. -/
theorem decodeBytesWith_unit (m : OpcodeMap) (u1 : Halfword) (rest : List Byte) :
    decodeBytesWith m (lowByte u1 :: highByte u1 :: rest) =
      match decodeWith m u1 with
      | .error e => .error (.unknownOpcode e)
      | .ok op =>
        if hasSecondUnit (formatOf op) then
          match rest with
          | b2 :: b3 :: rest' => .ok (assemble op u1 (joinBytes b3 b2), rest')
          | _ => .error .truncated
        else .ok (assemble op u1 placeholderUnit, rest) := by
  have h := joinBytes_bytes u1
  generalize highByte u1 = hi at *
  generalize lowByte u1 = lo at *
  subst h
  rfl

end Sys2Proof
end

