-- ==== Sys2Proof/Laws/State.lean ====
section
/-! SUPPORT. What each update of the state leaves in each field, and the two register accessors against each other. -/

namespace Sys2Proof.Machine

open Sys2Proof

/-! ### setPc -/

@[simp] theorem setPc_gpr (s : State) (a : Word) : (setPc s a).gpr = s.gpr := rfl
@[simp] theorem setPc_pc (s : State) (a : Word) : (setPc s a).pc = a := rfl
@[simp] theorem setPc_psw (s : State) (a : Word) : (setPc s a).psw = s.psw := rfl
@[simp] theorem setPc_cycles (s : State) (a : Word) : (setPc s a).cycles = s.cycles := rfl
@[simp] theorem setPc_fault (s : State) (a : Word) : (setPc s a).fault = s.fault := rfl
@[simp] theorem setPc_bus (s : State) (a : Word) : (setPc s a).bus = s.bus := rfl
@[simp] theorem setPc_opcodeMap (s : State) (a : Word) : (setPc s a).opcodeMap = s.opcodeMap := rfl
@[simp] theorem setPc_setPc (s : State) (a b : Word) : setPc (setPc s a) b = setPc s b := rfl
@[simp] theorem readReg_setPc (s : State) (a : Word) (i : RegIdx) : readReg (setPc s a) i = readReg s i := rfl

/-! ### setPsw -/

@[simp] theorem setPsw_gpr (s : State) (p : StatusWord) : (setPsw s p).gpr = s.gpr := rfl
@[simp] theorem setPsw_pc (s : State) (p : StatusWord) : (setPsw s p).pc = s.pc := rfl
@[simp] theorem setPsw_psw (s : State) (p : StatusWord) : (setPsw s p).psw = p := rfl
@[simp] theorem setPsw_cycles (s : State) (p : StatusWord) : (setPsw s p).cycles = s.cycles := rfl
@[simp] theorem setPsw_fault (s : State) (p : StatusWord) : (setPsw s p).fault = s.fault := rfl
@[simp] theorem setPsw_bus (s : State) (p : StatusWord) : (setPsw s p).bus = s.bus := rfl
@[simp] theorem setPsw_opcodeMap (s : State) (p : StatusWord) : (setPsw s p).opcodeMap = s.opcodeMap := rfl
@[simp] theorem readReg_setPsw (s : State) (p : StatusWord) (i : RegIdx) : readReg (setPsw s p) i = readReg s i := rfl

/-! ### addCycles -/

@[simp] theorem addCycles_gpr (s : State) (n : Nat) : (addCycles s n).gpr = s.gpr := rfl
@[simp] theorem addCycles_pc (s : State) (n : Nat) : (addCycles s n).pc = s.pc := rfl
@[simp] theorem addCycles_psw (s : State) (n : Nat) : (addCycles s n).psw = s.psw := rfl
@[simp] theorem addCycles_cycles (s : State) (n : Nat) : (addCycles s n).cycles = s.cycles + n := rfl
@[simp] theorem addCycles_fault (s : State) (n : Nat) : (addCycles s n).fault = s.fault := rfl
@[simp] theorem addCycles_bus (s : State) (n : Nat) : (addCycles s n).bus = s.bus := rfl
@[simp] theorem addCycles_opcodeMap (s : State) (n : Nat) : (addCycles s n).opcodeMap = s.opcodeMap := rfl
@[simp] theorem readReg_addCycles (s : State) (n : Nat) (i : RegIdx) : readReg (addCycles s n) i = readReg s i := rfl

/-! ### setBus -/

@[simp] theorem setBus_gpr (s : State) (b : Bus) : (setBus s b).gpr = s.gpr := rfl
@[simp] theorem setBus_pc (s : State) (b : Bus) : (setBus s b).pc = s.pc := rfl
@[simp] theorem setBus_psw (s : State) (b : Bus) : (setBus s b).psw = s.psw := rfl
@[simp] theorem setBus_cycles (s : State) (b : Bus) : (setBus s b).cycles = s.cycles := rfl
@[simp] theorem setBus_fault (s : State) (b : Bus) : (setBus s b).fault = s.fault := rfl
@[simp] theorem setBus_bus (s : State) (b : Bus) : (setBus s b).bus = b := rfl
@[simp] theorem setBus_opcodeMap (s : State) (b : Bus) : (setBus s b).opcodeMap = s.opcodeMap := rfl
@[simp] theorem readReg_setBus (s : State) (b : Bus) (i : RegIdx) : readReg (setBus s b) i = readReg s i := rfl

/-! ### latch -/

@[simp] theorem latch_gpr (s : State) (e : CoreError) : (latch s e).gpr = s.gpr := rfl
@[simp] theorem latch_pc (s : State) (e : CoreError) : (latch s e).pc = s.pc := rfl
@[simp] theorem latch_psw (s : State) (e : CoreError) : (latch s e).psw = s.psw := rfl
@[simp] theorem latch_cycles (s : State) (e : CoreError) : (latch s e).cycles = s.cycles := rfl
@[simp] theorem latch_fault (s : State) (e : CoreError) : (latch s e).fault = some e := rfl
@[simp] theorem latch_bus (s : State) (e : CoreError) : (latch s e).bus = s.bus := rfl
@[simp] theorem latch_opcodeMap (s : State) (e : CoreError) : (latch s e).opcodeMap = s.opcodeMap := rfl
@[simp] theorem readReg_latch (s : State) (e : CoreError) (i : RegIdx) : readReg (latch s e) i = readReg s i := rfl

@[simp] theorem latchBus_eq (s : State) (b : BusError) (a : Word) : latchBus s b a = latch s (.bus b.kind b.addr a) := rfl
@[simp] theorem latchDecode_eq (s : State) (d : DecodeError) (a : Word) : latchDecode s d a = latch s (.decode d.unit a) := rfl

/-! ### The register accessors (R22, R23) -/

@[simp] theorem writeReg_pc (s : State) (i : RegIdx) (v : Word) : (writeReg s i v).pc = s.pc := by
  unfold writeReg; split <;> rfl
@[simp] theorem writeReg_psw (s : State) (i : RegIdx) (v : Word) : (writeReg s i v).psw = s.psw := by
  unfold writeReg; split <;> rfl
@[simp] theorem writeReg_cycles (s : State) (i : RegIdx) (v : Word) : (writeReg s i v).cycles = s.cycles := by
  unfold writeReg; split <;> rfl
@[simp] theorem writeReg_fault (s : State) (i : RegIdx) (v : Word) : (writeReg s i v).fault = s.fault := by
  unfold writeReg; split <;> rfl
@[simp] theorem writeReg_bus (s : State) (i : RegIdx) (v : Word) : (writeReg s i v).bus = s.bus := by
  unfold writeReg; split <;> rfl
@[simp] theorem writeReg_opcodeMap (s : State) (i : RegIdx) (v : Word) : (writeReg s i v).opcodeMap = s.opcodeMap := by
  unfold writeReg; split <;> rfl

/-- Register 0 reads 0 (R22). -/
@[simp] theorem readReg_zero (s : State) : readReg s 0#5 = 0#32 := by simp [readReg]

/-- A write to register 0 changes nothing (R23). -/
@[simp] theorem writeReg_zero (s : State) (v : Word) : writeReg s 0#5 v = s := by simp [writeReg]

/-- A register index other than 0 is at least 1. -/
theorem regIdx_pos {i : RegIdx} (h : i ≠ 0#5) : 0 < i.toNat := by
  rcases Nat.eq_zero_or_pos i.toNat with h0 | h0
  · exact absurd (BitVec.eq_of_toNat_eq (by simpa using h0)) h
  · exact h0

/-- A stored register is read from its slot (R22). -/
theorem readReg_stored (s : State) {i : RegIdx} (h : i ≠ 0#5) :
    readReg s i = s.gpr[i.toNat - 1]'(by have := i.isLt; have := regIdx_pos h; omega) := by
  simp [readReg, h]

/-- What a register reads as after a register write: everything the two accessors say together. -/
theorem readReg_writeReg (s : State) (i j : RegIdx) (v : Word) :
    readReg (writeReg s i v) j = if j = 0#5 then 0#32 else if j = i then v else readReg s j := by
  by_cases hj : j = 0#5
  · simp [hj]
  · by_cases hi : i = 0#5
    · subst hi; simp [hj]
    · have hp := regIdx_pos hj
      have hq := regIdx_pos hi
      rw [readReg_stored _ hj, readReg_stored _ hj]
      simp only [writeReg, hi, if_false, hj, Vector.getElem_setIfInBounds]
      have hiff : i.toNat - 1 = j.toNat - 1 ↔ j = i := by
        rw [← BitVec.toNat_inj]; omega
      simp only [hiff]

end Sys2Proof.Machine
end

