-- ==== Sys2Proof/Laws/Sequencer.lean ====
section
/-! SUPPORT. What the phases of a step can do, and with them the step: one case lemma each, which later proofs cite
instead of unfolding the step (spec/40_sequencer.md R100 to R109). -/

namespace Sys2Proof.Machine

open Sys2Proof

/-- Everything phases 1 to 3 can answer: the three failures of R109, or an instruction with the PC behind it. -/
theorem fetchInstr_cases (s : State) :
    (readHalfword s.bus s.pc = .error ⟨.unmappedRead, s.pc⟩ ∧
      fetchInstr s = .error (latch s (.bus .unmappedRead s.pc s.pc))) ∨
    (∃ u1, readHalfword s.bus s.pc = .ok u1 ∧ decodeWith s.opcodeMap u1 = .error ⟨u1⟩ ∧
      fetchInstr s = .error (latch s (.decode u1 s.pc))) ∨
    (∃ u1 op, readHalfword s.bus s.pc = .ok u1 ∧ decodeWith s.opcodeMap u1 = .ok op ∧ hasSecondUnit (formatOf op) = true ∧
      readHalfword s.bus (s.pc + 2#32) = .error ⟨.unmappedRead, s.pc + 2#32⟩ ∧
      fetchInstr s = .error (latch (setPc s (s.pc + 2#32)) (.bus .unmappedRead (s.pc + 2#32) s.pc))) ∨
    (∃ u1 op u2, readHalfword s.bus s.pc = .ok u1 ∧ decodeWith s.opcodeMap u1 = .ok op ∧ hasSecondUnit (formatOf op) = true ∧
      readHalfword s.bus (s.pc + 2#32) = .ok u2 ∧
      fetchInstr s = .ok (assemble op u1 u2, setPc s (s.pc + 4#32))) ∨
    (∃ u1 op, readHalfword s.bus s.pc = .ok u1 ∧ decodeWith s.opcodeMap u1 = .ok op ∧ hasSecondUnit (formatOf op) = false ∧
      fetchInstr s = .ok (assemble op u1 placeholderUnit, setPc s (s.pc + 2#32))) := by
  cases h1 : readHalfword s.bus s.pc with
  | error b =>
    have hb := readHalfword_error h1
    subst hb
    exact .inl ⟨rfl, by simp [fetchInstr, h1]⟩
  | ok u1 =>
    cases hd : decodeWith s.opcodeMap u1 with
    | error d =>
      have he := (decodeWith_error hd).1
      subst he
      exact .inr (.inl ⟨u1, rfl, hd, by simp [fetchInstr, h1, hd]⟩)
    | ok op =>
      cases hf : hasSecondUnit (formatOf op) with
      | false => exact .inr (.inr (.inr (.inr ⟨u1, op, rfl, hd, hf, by simp [fetchInstr, h1, hd, hf]⟩)))
      | true =>
        cases h2 : readHalfword s.bus (s.pc + 2#32) with
        | error b =>
          have hb := readHalfword_error h2
          subst hb
          exact .inr (.inr (.inl ⟨u1, op, rfl, hd, hf, rfl, by simp [fetchInstr, h1, hd, hf, h2]⟩))
        | ok u2 => exact .inr (.inr (.inr (.inl ⟨u1, op, u2, rfl, hd, hf, rfl, by simp [fetchInstr, h1, hd, hf, h2]⟩)))

/-- A fetched instruction leaves everything but the PC, which stands behind the instruction (R28). -/
theorem fetchInstr_ok {s t : State} {i : Instr} (h : fetchInstr s = .ok (i, t)) :
    t = setPc s (s.pc + instrLength i) := by
  rcases fetchInstr_cases s with ⟨-, h'⟩ | ⟨_, -, -, h'⟩ | ⟨_, _, -, -, -, -, h'⟩ | ⟨u1, op, u2, -, -, hf, -, h'⟩ |
    ⟨u1, op, -, -, hf, h'⟩ <;> rw [h] at h' <;> cases h'
  · simp [instrLength, hf]
  · simp [instrLength, hf]

/-- A failed fetch or decode leaves everything but the PC, which is A or A + 2, and the latch (R109). -/
theorem fetchInstr_error {s t : State} (h : fetchInstr s = .error t) :
    ∃ a e, (a = s.pc ∨ a = s.pc + 2#32) ∧ t = latch (setPc s a) e := by
  rcases fetchInstr_cases s with ⟨-, h'⟩ | ⟨_, -, -, h'⟩ | ⟨_, _, -, -, -, -, h'⟩ | ⟨_, _, _, -, -, -, -, h'⟩ |
    ⟨_, _, -, -, -, h'⟩ <;> rw [h] at h' <;> cases h'
  · exact ⟨_, _, .inl rfl, rfl⟩
  · exact ⟨_, _, .inl rfl, rfl⟩
  · exact ⟨_, _, .inr rfl, rfl⟩

/-- How a store ends: everything it can do. -/
theorem endStore_cases (s : State) (r : Except BusError Bus) :
    (∃ b, r = .ok b ∧ endStore s r = .next (setBus s b)) ∨
      ∃ e, r = .error e ∧ endStore s r = .next (latch s (.bus e.kind e.addr (storeStart s))) := by
  cases r with
  | ok b => exact .inl ⟨b, rfl, rfl⟩
  | error e => exact .inr ⟨e, rfl, rfl⟩

/-- Phase 5 on a next state (R107). -/
theorem retire_next (i : Instr) (t : State) :
    retire i (.next t) = .next (if t.fault = none then addCycles t (cycleCost (opcodeOf i)) else t) := rfl

/-- The step of a core whose latch is clear (R100). -/
theorem step_running {s : State} (h : s.fault = none) :
    step s = match fetchInstr s with
      | .error t => .next t
      | .ok (i, t) => retire i (exec i t) := by
  obtain ⟨gpr, pc, psw, cycles, fault, bus, opcodeMap⟩ := s
  cases h
  rfl

/-- The step of a halted core (R101). -/
theorem step_halted {s : State} {e : CoreError} (h : s.fault = some e) : step s = .fault (.halted e) := by
  simp only [step, h]

/-- Everything a step can do: it finds the core halted; or phases 1 to 3 fail; or it runs the instruction fetched. -/
theorem step_cases (s : State) :
    (∃ e, s.fault = some e ∧ step s = .fault (.halted e)) ∨
    (s.fault = none ∧ ∃ t, fetchInstr s = .error t ∧ step s = .next t) ∨
    (s.fault = none ∧ ∃ i, fetchInstr s = .ok (i, setPc s (s.pc + instrLength i)) ∧
      step s = retire i (exec i (setPc s (s.pc + instrLength i)))) := by
  cases hf : s.fault with
  | some e => exact .inl ⟨e, rfl, by simp [step, hf]⟩
  | none =>
    cases h : fetchInstr s with
    | error t => exact .inr (.inl ⟨rfl, t, rfl, by simp [step, hf, h]⟩)
    | ok p =>
      obtain ⟨i, t⟩ := p
      have ht := fetchInstr_ok h
      subst ht
      exact .inr (.inr ⟨rfl, i, rfl, by simp [step, hf, h]⟩)

end Sys2Proof.Machine
end

