-- ==== Sys2Proof/Laws/Exec.lean ====
section
/-! SUPPORT. What a meaning can do to the bus, the latch and the status word: one lemma over all seven, which the
invariants of the step cite. -/

namespace Sys2Proof.Machine

open Sys2Proof

/-- Changing one region's bytes keeps the layout. -/
theorem layout_updateStore (b : Bus) (k : Nat) (f : Memory → Memory) : (updateStore b k f).layout = b.layout := by
  apply List.ext_getElem?
  intro j
  simp only [Bus.layout, updateStore, List.getElem?_map, List.getElem?_modify]
  cases b.regions[j]? with
  | none => rfl
  | some r => simp only [Option.map_eq_map, Option.map_some]; split <;> rfl

/-- What a successful write makes of the bus: one read-write region's bytes are changed, and canonical bytes stay
canonical where the table is well-formed. -/
def BusWritten (b b' : Bus) : Prop :=
  ∃ (p : Place) (f : Memory → Memory), b.regions[p.index]? = some p.region ∧ p.region.cap = .readWrite ∧
    b' = updateStore b p.index f ∧ (b.wf = true → (f p.region.store).wf p.region.size = true)

theorem writeByte_written {bus b : Bus} {addr : Word} {v : Byte} (hw : writeByte bus addr v = .ok b) :
    BusWritten bus b := by
  obtain ⟨p, hp, hc, rfl⟩ := writeThrough_ok hw
  obtain ⟨hr, -, hoff, -⟩ := resolve_eq_some hp
  refine ⟨p, _, hr, hc, rfl, fun h => ?_⟩
  obtain ⟨-, -, hpos, -, hst⟩ := Bus.wf_region h hr
  exact Memory.wf_write v (hoff ▸ Region.offset_lt _ hpos) hst

theorem writeWord_written {bus b : Bus} {addr v : Word} (hw : writeWord bus addr v = .ok b) : BusWritten bus b := by
  obtain ⟨p, hp, hc, rfl⟩ := writeThrough_ok hw
  obtain ⟨hr, hcov, hoff, -⟩ := resolve_eq_some hp
  refine ⟨p, _, hr, hc, rfl, fun h => ?_⟩
  obtain ⟨-, -, -, -, hst⟩ := Bus.wf_region h hr
  exact wf_storeWord v (hoff ▸ (word_offset (Bus.wf_readWrite h hr hc) hcov).2) hst

/-- A write keeps the table well-formed. -/
theorem BusWritten.wf {b b' : Bus} (h : BusWritten b b') (hw : b.wf = true) : b'.wf = true := by
  obtain ⟨p, f, hr, hc, rfl, hf⟩ := h
  exact Bus.wf_updateStore hw hr hc (hf hw)

/-- A write keeps the layout. -/
theorem BusWritten.layout {b b' : Bus} (h : BusWritten b b') : b'.layout = b.layout := by
  obtain ⟨p, f, -, -, rfl, -⟩ := h
  exact layout_updateStore b p.index f

/-- A write changes no read-only region. -/
theorem BusWritten.readOnly {b b' : Bus} (h : BusWritten b b') {k : Nat} {r : Region} (hr : b.regions[k]? = some r)
    (hc : r.cap = .readOnly) : b'.regions[k]? = some r := by
  obtain ⟨p, f, hp, hrw, rfl, -⟩ := h
  simp only [updateStore, List.getElem?_modify, hr]
  by_cases hk : p.index = k
  · subst hk
    rw [hr] at hp
    cases hp
    rw [hc] at hrw
    cases hrw
  · simp [hk]

/-- A write moves no address. -/
theorem BusWritten.location {b b' : Bus} (h : BusWritten b b') (a : Word) : location b' a = location b a := by
  obtain ⟨p, f, -, -, rfl, -⟩ := h
  exact location_updateStore b p.index f a

/-- Everything a meaning can answer: a next state, whose bus is the same or written, whose latch is the same or holds a
failed store, and whose inert status fields, cycle counter and opcode map are the same. -/
theorem exec_cases (i : Instr) (s : State) :
    ∃ t, exec i s = .next t ∧ (t.bus = s.bus ∨ BusWritten s.bus t.bus) ∧
      (t.fault = s.fault ∨ ∃ k a p, t.fault = some (.bus k a p)) ∧
      t.psw.inert = s.psw.inert ∧ t.cycles = s.cycles ∧ t.opcodeMap = s.opcodeMap := by
  have store : ∀ r : Except BusError Bus, (∀ b, r = .ok b → BusWritten s.bus b) →
      ∃ t, endStore s r = .next t ∧ (t.bus = s.bus ∨ BusWritten s.bus t.bus) ∧
        (t.fault = s.fault ∨ ∃ k a p, t.fault = some (.bus k a p)) ∧
        t.psw.inert = s.psw.inert ∧ t.cycles = s.cycles ∧ t.opcodeMap = s.opcodeMap := by
    intro r hr
    rcases endStore_cases s r with ⟨b, hb, h⟩ | ⟨e, -, h⟩
    · exact ⟨_, h, .inr (hr b hb), .inl rfl, rfl, rfl, rfl⟩
    · exact ⟨_, h, .inl rfl, .inr ⟨_, _, _, rfl⟩, rfl, rfl, rfl⟩
  cases i with
  | jmp reg1 => exact ⟨_, rfl, .inl rfl, .inl rfl, rfl, rfl, rfl⟩
  | mov imm5 reg2 => exact ⟨_, rfl, .inl (by simp), .inl (by simp), by simp, by simp, by simp⟩
  | sub reg1 reg2 => exact ⟨_, rfl, .inl (by simp), .inl (by simp), rfl, by simp, by simp⟩
  | movhi imm16 reg1 reg2 => exact ⟨_, rfl, .inl (by simp), .inl (by simp), by simp, by simp, by simp⟩
  | movea imm16 reg1 reg2 => exact ⟨_, rfl, .inl (by simp), .inl (by simp), by simp, by simp, by simp⟩
  | stb reg2 disp16 reg1 => exact store _ fun b hb => writeByte_written hb
  | outw reg2 disp16 reg1 => exact store _ fun b hb => writeWord_written hb

end Sys2Proof.Machine
end

