-- ==== Sys2Proof/Laws/PerInstr.lean ====
section
/-! SUPPORT. A statement about every instruction as syntax, one lemma per constructor of `Instr`. -/

namespace Sys2Proof.Laws

open Sys2Proof

/-- An encoding has the shape its opcode's format asks for: under every opcode map, the first unit's bits 15..10 are
the opcode's number, and there are as many units as the PC moves past, in halves of a word (R75, R76, R81, R94). -/
def EncodingShape.Statement (i : Instr) : Prop :=
  ∀ m : OpcodeMap, ((encodeWith m i).head?.map opcodeField = some (m.number (opcodeOf i))) ∧
    (encodeBytesWith m i).length = (instrLength i).toNat

theorem EncodingShape.jmp (reg1 : RegIdx) : EncodingShape.Statement (.jmp reg1) := by
  intro m; constructor <;> simp [encodeWith, encodeBytesWith, opcodeOf, OpcodeMap.number, instrLength, formatOf, hasSecondUnit]

theorem EncodingShape.mov (imm5 : BitVec 5) (reg2 : RegIdx) : EncodingShape.Statement (.mov imm5 reg2) := by
  intro m; constructor <;> simp [encodeWith, encodeBytesWith, opcodeOf, OpcodeMap.number, instrLength, formatOf, hasSecondUnit]

theorem EncodingShape.sub (reg1 reg2 : RegIdx) : EncodingShape.Statement (.sub reg1 reg2) := by
  intro m; constructor <;> simp [encodeWith, encodeBytesWith, opcodeOf, OpcodeMap.number, instrLength, formatOf, hasSecondUnit]

theorem EncodingShape.movhi (imm16 : BitVec 16) (reg1 reg2 : RegIdx) : EncodingShape.Statement (.movhi imm16 reg1 reg2) := by
  intro m; constructor <;> simp [encodeWith, encodeBytesWith, opcodeOf, OpcodeMap.number, instrLength, formatOf, hasSecondUnit]

theorem EncodingShape.movea (imm16 : BitVec 16) (reg1 reg2 : RegIdx) : EncodingShape.Statement (.movea imm16 reg1 reg2) := by
  intro m; constructor <;> simp [encodeWith, encodeBytesWith, opcodeOf, OpcodeMap.number, instrLength, formatOf, hasSecondUnit]

theorem EncodingShape.stb (reg2 : RegIdx) (disp16 : BitVec 16) (reg1 : RegIdx) : EncodingShape.Statement (.stb reg2 disp16 reg1) := by
  intro m; constructor <;> simp [encodeWith, encodeBytesWith, opcodeOf, OpcodeMap.number, instrLength, formatOf, hasSecondUnit]

theorem EncodingShape.outw (reg2 : RegIdx) (disp16 : BitVec 16) (reg1 : RegIdx) : EncodingShape.Statement (.outw reg2 disp16 reg1) := by
  intro m; constructor <;> simp [encodeWith, encodeBytesWith, opcodeOf, OpcodeMap.number, instrLength, formatOf, hasSecondUnit]

end Sys2Proof.Laws
end

