-- ==== Sys2Proof/Tests/Slice0.lean ====
section
/-! SUPPORT. Tests whose expected results are taken from the spec: its worked examples, the vectors of
spec/95_test_vectors.md (named by their place there) and words written out from spec/30_encoding.md; and for every
statement with hypotheses a witness that meets them. -/

namespace Sys2Proof.Tests

open Sys2Proof Sys2Proof.Machine

/-! ### Helpers -/

def nextOf (o : Host.Outcome State Fault Refusal) : Option State :=
  match o with
  | .next s => some s
  | .fault _ => none
  | .refused _ => none

/-- One field, or a few, of the state after a step. -/
def after {α : Type} (s : State) (f : State → α) : Option α := (nextOf (step s)).map f

/-- The image of S1. -/
def imageS1 : List Byte := [0x25, 0x40, 0x01, 0x18]

def busS1 : Bus := ⟨[romRegion imageS1]⟩

/-- The core of S1 after construction. -/
def coreS1 : State := State.construct defaultOpcodeMap busS1

/-- The read-write region of vectors 2.2 and 2.7. -/
def rwRegion : Region := ⟨0x05000000, 0x05FFFFFF, 0x10000, .readWrite, []⟩

/-- A core with a 16-byte image of zeros and the read-write region. -/
def coreRw : State := State.construct defaultOpcodeMap ⟨[romRegion (List.replicate 16 0), rwRegion]⟩

/-- `coreRw` with x[1] and x[2] given. -/
def coreWith (x1 x2 : Word) : State := writeReg (writeReg coreRw 1 x1) 2 x2

/-- A region parameter whose window, size and bytes R51 admits. -/
def smallParam : RegionParam := ⟨0x05000000, 0x05000003, 4, .readWrite, [1, 2, 3, 4]⟩

/-! ### Decoding: words written out bit by bit from R77 to R80 and R85 -/

theorem test_decode_jmp : decodeTableWord 16 0b000110_00000_00001 = some (.jmp 1) := by decide
theorem test_decode_jmp_ignores_reg2 : decodeTableWord 16 0b000110_11111_11111 = some (.jmp 31) := by decide
theorem test_decode_mov : decodeTableWord 16 0b010000_00001_00101 = some (.mov 5 1) := by decide
theorem test_decode_sub : decodeTableWord 16 0b000010_00010_00001 = some (.sub 1 2) := by decide
theorem test_decode_movhi : decodeTableWord 32 0b0001001000110100_101111_00010_00001 = some (.movhi 0x1234 1 2) := by decide
theorem test_decode_movea : decodeTableWord 32 0b0101011001111000_101000_00001_00000 = some (.movea 0x5678 0 1) := by decide
theorem test_decode_stb : decodeTableWord 32 0b1111111111111111_110100_00010_00000 = some (.stb 2 0xFFFF 0) := by decide
theorem test_decode_outw : decodeTableWord 32 0b0000000000001001_111111_00011_00001 = some (.outw 3 9 1) := by decide

/-- Vectors 2.1 that raise DecodeError. -/
theorem test_decode_errors : [0x0000, 0x0C00, 0x1C00, 0x4400, 0x7C00, 0xFBFF].map (fun w : Halfword => decode w) =
    [0x0000, 0x0C00, 0x1C00, 0x4400, 0x7C00, 0xFBFF].map (fun w : Halfword => .error ⟨w⟩) := by rfl

theorem test_decode_truncated : decodeBytes [0x20, 0xA0, 0x78] = .error .truncated := by rfl

/-- The example of R94. -/
theorem test_encode_movea : encodeBytes (.movea 0x5678 0 1) = [0x20, 0xA0, 0x78, 0x56] := by decide

/-- Bytes of program P3. -/
theorem test_encode_outw : encodeBytes (.outw 3 9 1) = [0x61, 0xFC, 0x09, 0x00] := by decide

/-! ### Well-formedness: each check refuses an ill-formed term -/

theorem test_opcodeMap_two_on_one_number : ¬ OpcodeMap.WellFormed { defaultOpcodeMap with sub := 0b000110#6 } := by decide
theorem test_image_empty : constructBus [] [] = .error .inconsistentRegionTable := by rfl
theorem test_image_no_power_of_two : constructBus [1, 2, 3] [] = .error .inconsistentRegionTable := by rfl
theorem test_rom_too_long : Region.romWf { romRegion imageS1 with size := 0x02000000 } = false := by decide
theorem test_rom_moved : Region.romWf { romRegion imageS1 with lo := 0x06000000 } = false := by decide
theorem test_rom_writable : Region.romWf { romRegion imageS1 with cap := .readWrite } = false := by decide
theorem test_extra_window_reversed : RegionParam.wf { smallParam with lo := 0x05000008 } = false := by decide
theorem test_extra_beyond_27_bits : RegionParam.wf { smallParam with hi := 0x08000003 } = false := by decide
theorem test_extra_size_no_power : RegionParam.wf { smallParam with size := 6, bytes := [1, 2, 3, 4, 5, 6] } = false := by decide
theorem test_extra_size_too_small : RegionParam.wf { smallParam with size := 2, bytes := [1, 2] } = false := by decide
theorem test_extra_lo_unaligned : RegionParam.wf { smallParam with lo := 0x04FFFFFE } = false := by decide
theorem test_extra_hi_unaligned : RegionParam.wf { smallParam with hi := 0x05000005 } = false := by decide
theorem test_extra_bytes_missing : RegionParam.wf { smallParam with bytes := [1, 2, 3] } = false := by decide
theorem test_extra_admitted : (constructBus imageS1 [smallParam]).toOption.isSome = true := by decide
theorem test_memory_unsorted : Memory.wf 16 [(3, 1), (2, 1)] = false := by decide
theorem test_memory_lists_default : Memory.wf 16 [(3, 0)] = false := by decide
theorem test_memory_beyond_size : Memory.wf 16 [(16, 1)] = false := by decide
theorem test_memory_write_default_removes : Memory.write [(2, 7), (3, 1)] 3 0 = [(2, 7)] := by decide

/-! ### Reset (S3, R37) -/

theorem test_reset : (State.reset.pc, readReg State.reset 31, statusSnapshot State.reset, State.reset.cycles, State.reset.fault) =
    (0xFFFFFFF0#32, 0#32, 0x00008000#32, 0, none) := by decide

/-! ### S1, P1: the source's program, step by step -/

theorem test_S1_mov : after coreS1 (fun t => (readReg t 1, t.pc, t.cycles)) = some (5, 0xFFFFFFF2#32, 1) := by decide
theorem test_S1_jmp : after (afterStep coreS1) (fun t => (t.pc, t.cycles)) = some (5, 4) := by decide
theorem test_P1_fetch_fails : after (setPc coreS1 5) (fun t => (t.fault, t.pc)) =
    some (some (.bus .unmappedRead 5 5), 5) := by decide
theorem test_P1_halted : step (latch coreS1 (.bus .unmappedRead 5 5)) = .fault (.halted (.bus .unmappedRead 5 5)) := by rfl

/-! ### One or two vectors per instruction -/

/-- 2.4: imm5 = 0b10000. -/
theorem test_mov_negative : after (coreRw.withFetchWord 16 0x4030) (readReg · 1) = some 0xFFFFFFF0#32 := by decide
/-- S2: r0 as the destination. -/
theorem test_mov_r0 : after (coreRw.withFetchWord 16 0x4005) (readReg · 0) = some 0#32 := by decide
/-- 2.3, the row 0x7FFFFFFF - 0xFFFFFFFF. -/
theorem test_sub_overflow : after ((coreWith 0xFFFFFFFF#32 0x7FFFFFFF#32).withFetchWord 16 0x0841)
    (fun t => (readReg t 2, statusSnapshot t)) = some (0x80000000#32, 0x0000800E#32) := by decide
/-- 2.3, `SUB r1, r0`: the flags without the result. -/
theorem test_sub_r0 : after ((coreWith 3 0).withFetchWord 16 0x0801)
    (fun t => (readReg t 0, statusSnapshot t)) = some (0#32, 0x0000800A#32) := by decide
/-- 2.5, MOVHI 0xFFFF on 0xFFFFFFFF. -/
theorem test_movhi_wraps : after ((coreWith 0xFFFFFFFF#32 0).withFetchWord 32 0xFFFFBC41) (readReg · 2) =
    some 0xFFFEFFFF#32 := by decide
/-- 2.5, MOVEA 0x8000 on 0x12340000. -/
theorem test_movea_signed : after ((coreWith 0x12340000#32 0).withFetchWord 32 0x8000A041) (readReg · 2) =
    some 0x12338000#32 := by decide
/-- 2.6, `JMP [r3]`: the odd target is kept, and the next fetch is at the even address below. -/
theorem test_jmp_odd : after ((writeReg coreRw 3 0xFFFFFFF1#32).withFetchWord 16 0x1803)
    (fun t => (t.pc, t.cycles, (readHalfword t.bus t.pc).toOption)) = some (0xFFFFFFF1#32, 3, some 0x1803#16) := by decide
/-- 2.7, ST.B r2, 3[r1]; and the mirror of 2.2. -/
theorem test_stb : after ((coreWith 0x05000000#32 0x123456FF#32).withFetchWord 32 0x0003D041)
    (fun t => ((readByte t.bus 0x05000003#32).toOption, (readByte t.bus 0x05010003#32).toOption, t.fault)) =
    some (some 0xFF, some 0xFF, none) := by decide
/-- 2.7, documented configuration, ST.B r2, -1[r0]. -/
theorem test_stb_rom : after (State.reset.withFetchWord 32 0xFFFFD040) (fun t => (t.fault, t.pc, t.cycles)) =
    some (some (.bus .readOnlyWrite 0xFFFFFFFF#32 0xFFFFFFF0#32), 0xFFFFFFF4#32, 0) := by decide
/-- 2.7, OUT.W r3, 9[r1] on the word at offset 8, with 2.2's read_halfword(0x0500000A). -/
theorem test_outw : after ((writeReg (coreWith 0x05000000#32 0) 3 0x11223344#32).withFetchWord 32 0x0009FC61)
    (fun t => ((t.bus.regions.getD 1 rwRegion).store, (readHalfword t.bus 0x0500000A#32).toOption)) =
    some ([(8, 0x44), (9, 0x33), (10, 0x22), (11, 0x11)], some 0x1122#16) := by decide
/-- 2.7, OUT.W r3, -32768[r1]: unmapped. -/
theorem test_outw_unmapped : after ((coreWith 0x05000000#32 0).withFetchWord 32 0x8000FC61) (·.fault) =
    some (some (.bus .unmappedWrite 0x04FF8000#32 0xFFFFFFF0#32)) := by decide

/-! ### The sequencer's failures (2.8) -/

theorem test_decode_error_keeps_pc : after (State.reset.withFetchWord 16 0x0000) (fun t => (t.fault, t.pc, t.cycles)) =
    some (some (.decode 0x0000#16 0xFFFFFFF0#32), 0xFFFFFFF0#32, 0) := by decide
/-- 2.8, third row: the second unit lies past the last halfword of the address space. -/
theorem test_second_unit_unmapped : after ((setPc State.reset 0xFFFFFFFE#32).withFetchWord 16 0xA000) (fun t => (t.fault, t.pc)) =
    some (some (.bus .unmappedRead 0x00000000#32 0xFFFFFFFE#32), 0x00000000#32) := by decide

/-- A core constructed with another map runs by it (R85): with SUB at 000001, the unit 0x0441 is `SUB r1, r2`. -/
theorem test_other_opcodeMap :
    after ({ coreWith 3 10 with opcodeMap := { defaultOpcodeMap with sub := 0b000001#6 } }.withFetchWord 16 0x0441)
      (readReg · 2) = some 7#32 := by decide

/-! ### Witnesses: each meets every hypothesis of the statement it names -/

theorem witness_RegisterAccessorsKeepZero :
    (1#5 ≠ 0#5 ∧ (1#5).toNat - 1 < 31) ∧ (31#5 ≠ 0#5 ∧ (31#5).toNat - 1 < 31) := by decide

theorem witness_AluFunctionsAndExtensions : (0 < 32 ∧ 4 < 5) ∧ (31 < 32 ∧ ¬ 31 < 5) := by decide

theorem witness_EffectiveAddressRegisterPlusDisplacement :
    (writeByte (coreWith 0x05000000#32 0).bus (effectiveAddress (coreWith 0x05000000#32 0) 1 3) 0xFF).toOption.isSome = true ∧
      (writeWord (coreWith 0x05000000#32 0).bus (effectiveAddress (coreWith 0x05000000#32 0) 1 9) 1).toOption.isSome = true ∧
      (nextOf (exec (.stb 2 3 1) (coreWith 0x05000000#32 0))).isSome = true := by decide

theorem witness_MoveaThenMovhiBuildsConstant :
    1#5 ≠ 0#5 ∧ 0x8000#16 = (0x12348000#32).extractLsb' 0 16 ∧
      0x1235#16 = (0x12348000#32).extractLsb' 16 16 + (BitVec.ofBool ((0x12348000#32).getLsbD 15)).setWidth 16 := by decide

theorem witness_StbStoresLowByte :
    (coreWith 0x05000000#32 7).bus.wf = true ∧
      resolve (coreWith 0x05000000#32 7).bus (a27 (effectiveAddress (coreWith 0x05000000#32 7) 1 3)) = some ⟨1, rwRegion, 3⟩ ∧
      rwRegion.cap = .readWrite := by decide

/-- The last byte of the window: a store through the mirror. -/
theorem witness_StbStoresLowByte_last :
    resolve (coreWith 0x05FFFFFF#32 7).bus (a27 (effectiveAddress (coreWith 0x05FFFFFF#32 7) 1 0)) =
      some ⟨1, rwRegion, 0xFFFF⟩ := by decide

theorem witness_OutwStoresWordLittleEndian :
    (coreWith 0x05FFFFFF#32 7).bus.wf = true ∧
      resolve (coreWith 0x05FFFFFF#32 7).bus (a27 (wordAddr (effectiveAddress (coreWith 0x05FFFFFF#32 7) 1 0))) =
        some ⟨1, rwRegion, 0xFFFC⟩ ∧ rwRegion.cap = .readWrite := by decide

/-- The four clauses: the last unmapped address and the first of the ROM window, for both stores. -/
theorem witness_FailedStoreOnlySetsLatch :
    resolve (coreWith 0x06FFFFFF#32 0).bus (a27 (effectiveAddress (coreWith 0x06FFFFFF#32 0) 1 0)) = none ∧
      (resolve (coreWith 0x07000000#32 0).bus (a27 (effectiveAddress (coreWith 0x07000000#32 0) 1 0))).map (·.region.cap) =
        some .readOnly ∧
      resolve (coreWith 0x06FFFFFF#32 0).bus (a27 (wordAddr (effectiveAddress (coreWith 0x06FFFFFF#32 0) 1 0))) = none ∧
      (resolve (coreWith 0x07000003#32 0).bus (a27 (wordAddr (effectiveAddress (coreWith 0x07000003#32 0) 1 0)))).map
        (·.region.cap) = some .readOnly := by decide

theorem witness_StoresFailInDocumentedConfiguration : busS1.Documented := ⟨romRegion imageS1, by decide, rfl⟩

theorem witness_StoredBytesAreFetched :
    (coreWith 0x05000000#32 0x0000BEEF#32).bus.wf = true ∧ (coreWith 0x05000000#32 0x0000BEEF#32).fault = none ∧
      (nextOf (exec (.outw 2 4 1) (coreWith 0x05000000#32 0x0000BEEF#32))).map (·.fault) = some none ∧
      (nextOf (exec (.stb 2 5 1) (coreWith 0x05000000#32 0x0000BEEF#32))).map (·.fault) = some none := by decide

theorem witness_MovStepIsRuleR125 :
    coreS1.opcodeMap.WellFormed ∧ coreS1.fault = none ∧ (readHalfword coreS1.bus coreS1.pc).toOption = some 0x4025#16 ∧
      (0x4025#16).extractLsb' 10 6 = coreS1.opcodeMap.mov := by decide

theorem witness_JmpStepIsRuleR115 :
    (afterStep coreS1).opcodeMap.WellFormed ∧ (afterStep coreS1).fault = none ∧
      (readHalfword (afterStep coreS1).bus (afterStep coreS1).pc).toOption = some 0x1801#16 ∧
      (0x1801#16).extractLsb' 10 6 = (afterStep coreS1).opcodeMap.jmp ∧
      resolve (afterStep (afterStep coreS1)).bus (a27 ((afterStep (afterStep coreS1)).pc &&& 0xFFFFFFFE#32)) = none := by decide

theorem witness_StepRunsDecodedInstruction :
    coreS1.fault = none ∧
      (List.range 4).map (fun k => (readByte coreS1.bus ((coreS1.pc &&& 0xFFFFFFFE#32) + BitVec.ofNat 32 k)).toOption) =
        imageS1.map some ∧
      (decodeBytesWith coreS1.opcodeMap imageS1).toOption = some (.mov 5 1, [0x01, 0x18]) := by decide

theorem witness_EveryStepOfARunningCoreCompletes : State.reset.fault = none := by decide

/-- The four rows of R109. -/
theorem witness_FailedStepLeavesTableR109 :
    (setPc coreS1 5).fault = none ∧ (readHalfword coreS1.bus 5).toOption = none ∧
      State.reset.fault = none ∧ (readHalfword State.reset.bus State.reset.pc).toOption = some 0x0000#16 ∧
      (∀ op ∈ Opcode.all, State.reset.opcodeMap.number op ≠ (0x0000#16).extractLsb' 10 6) ∧
      State.reset.opcodeMap.WellFormed ∧ State.reset.opcodeMap.number .movea = (0xA000#16).extractLsb' 10 6 ∧
      ((setPc State.reset 0xFFFFFFFE#32).withFetchWord 16 0xA000).fault = none ∧
      (readHalfword ((setPc State.reset 0xFFFFFFFE#32).withFetchWord 16 0xA000).bus 0xFFFFFFFE#32).toOption = some 0xA000#16 ∧
      (readHalfword ((setPc State.reset 0xFFFFFFFE#32).withFetchWord 16 0xA000).bus (0xFFFFFFFE#32 + 2#32)).toOption = none ∧
      ((fetchInstr (State.reset.withFetchWord 32 0xFFFFD040)).toOption.map (·.1)) = some (.stb 2 0xFFFF 0) ∧
      (after (State.reset.withFetchWord 32 0xFFFFD040) (·.fault.isSome)) = some true ∧
      ((fetchInstr (State.reset.withFetchWord 32 0x0010FC40)).toOption.map (·.1)) = some (.outw 2 0x10 0) ∧
      (after (State.reset.withFetchWord 32 0x0010FC40) (·.fault.isSome)) = some true := by decide

theorem witness_DecodeErrorOnlyFromUnknownOpcode :
    after State.reset (·.fault) = some (some (.decode 0x0000#16 0xFFFFFFF0#32)) ∧
      (nextOf (exec (.mov 0 0) (latch State.reset (.decode 0#16 0#32)))).map (·.fault) = some (some (.decode 0#16 0#32)) := by
  decide

theorem witness_HaltedCoreStaysHalted : (afterStep State.reset).fault = some (.decode 0x0000#16 0xFFFFFFF0#32) := by decide

theorem witness_RunFaultedIffLatchSetAtEnd :
    coreS1.fault = none ∧ (drive 2 coreS1).fault = none ∧ (drive 3 coreS1).fault = some (.bus .unmappedRead 5 5) := by decide

theorem witness_CyclesAddedOnlyBySuccessfulSteps :
    after coreS1 (·.fault.isSome) = some false ∧ after State.reset (·.fault.isSome) = some true := by decide

theorem witness_NothingReadsTheCycleCounter :
    after coreS1 (·.fault) = some none ∧ step (latch coreS1 (.decode 0 0)) = .fault (.halted (.decode 0 0)) :=
  ⟨by decide, rfl⟩

theorem witness_OnlyJmpWritesThePc :
    coreS1.fault = none ∧ (fetchInstr coreS1).toOption.map (·.1) = some (.mov 5 1) ∧ (after coreS1 (·.pc)).isSome = true ∧
      (fetchInstr (afterStep coreS1)).toOption.map (·.1) = some (.jmp 1) ∧
      (after (afterStep coreS1) (·.pc)).isSome = true := by decide

/-- The three clauses about a step: a failed fetch, an instruction other than SUB, a SUB. -/
theorem witness_OnlySubWritesFlagsAndNothingReadsThem :
    (fetchInstr (setPc coreS1 5)).toOption = none ∧ (nextOf (step (setPc coreS1 5))).isSome = true ∧
      (fetchInstr coreS1).toOption.map (·.1) = some (.mov 5 1) ∧ (nextOf (step coreS1)).isSome = true ∧
      (fetchInstr (coreRw.withFetchWord 16 0x0801)).toOption.map (·.1) = some (.sub 1 0) ∧
      (nextOf (step (coreRw.withFetchWord 16 0x0801))).isSome = true := by decide

/-- For DecodeLooksOnlyAtOpcodeBits, DecodeOfEncodeIsIdentity, DecodedBytesAreTheEncoding and
ConstructedStateHasTheInvariant. -/
theorem witness_wellFormed_opcodeMap : defaultOpcodeMap.WellFormed := defaultOpcodeMap_wellFormed

theorem witness_DecodedBytesAreTheEncoding :
    (decodeBytes [0xFF, 0x1B]).toOption = some (.jmp 31, []) ∧ (decodeBytes [0x25, 0x40]).toOption = some (.mov 5 1, []) := by
  decide

theorem witness_HighAddressBitsAreDiscarded :
    0x87000001#32 &&& 0x07FFFFFF#32 = 0x07000001#32 &&& 0x07FFFFFF#32 := by decide

/-- Both ends of a window that a region of other windows precedes, and the addresses beside it. -/
theorem witness_ReadByteFromFirstMatchingRegion :
    ¬((romRegion imageS1).lo ≤ (0x05000000#32).toNat % 2 ^ 27 ∧ (0x05000000#32).toNat % 2 ^ 27 ≤ (romRegion imageS1).hi) ∧
      rwRegion.lo ≤ (0x05000000#32).toNat % 2 ^ 27 ∧ (0x05FFFFFF#32).toNat % 2 ^ 27 ≤ rwRegion.hi ∧
      (∀ q ∈ coreRw.bus.regions, ¬(q.lo ≤ (0x04FFFFFF#32).toNat % 2 ^ 27 ∧ (0x04FFFFFF#32).toNat % 2 ^ 27 ≤ q.hi)) ∧
      (∀ q ∈ coreRw.bus.regions, ¬(q.lo ≤ (0x06000000#32).toNat % 2 ^ 27 ∧ (0x06000000#32).toNat % 2 ^ 27 ≤ q.hi)) := by
  decide

theorem witness_HalfwordReadIsTwoAlignedBytes :
    busS1.wf = true ∧ resolve busS1 (a27 (0x06FFFFFF#32 &&& 0xFFFFFFFE#32)) = none ∧
      resolve busS1 (a27 (0xFFFFFFF1#32 &&& 0xFFFFFFFE#32)) = some ⟨0, romRegion imageS1, 0⟩ := by decide

theorem witness_WriteByteChangesOneByteOrFails :
    coreRw.bus.wf = true ∧ resolve coreRw.bus (a27 0x00001000#32) = none ∧
      (resolve coreRw.bus (a27 0x07000000#32)).map (·.region.cap) = some .readOnly ∧
      resolve coreRw.bus (a27 0x05010003#32) = some ⟨1, rwRegion, 3⟩ := by decide

theorem witness_WriteWordIsAllOrNothing :
    coreRw.bus.wf = true ∧ resolve coreRw.bus (a27 (0x00001000#32 &&& 0xFFFFFFFC#32)) = none ∧
      (resolve coreRw.bus (a27 (0xFFFFFFF0#32 &&& 0xFFFFFFFC#32))).map (·.region.cap) = some .readOnly ∧
      resolve coreRw.bus (a27 (0x05000009#32 &&& 0xFFFFFFFC#32)) = some ⟨1, rwRegion, 8⟩ := by decide

theorem witness_RomWindowMirrorsTheImage :
    busS1.wf = true ∧ busS1.regions.head? = some (romRegion imageS1) ∧ 0x07000000 ≤ (a27 0x07000000#32).toNat ∧
      0x07000000 ≤ (a27 (0x07000000#32 + 1#32 * BitVec.ofNat 32 (romRegion imageS1).size)).toNat ∧
      (readByte busS1 0x07000004#32).toOption = some 0x25 := by decide

/-- For FirstFetchIsAtTheResetVector, ConstructionValuesOfR37, ConstructedStateHasTheInvariant and
RomHoldsTheImageForever: an image and an extra region from which a bus is constructed. -/
theorem witness_constructBus :
    constructBus imageS1 [smallParam] = .ok ⟨[romRegion imageS1, smallParam.toRegion]⟩ ∧
      [smallParam][0]? = some smallParam ∧ 0x07000000 ≤ (a27 0x07000000#32).toNat ∧ coreS1.bus = busS1 :=
  ⟨rfl, rfl, by decide, rfl⟩

theorem witness_BusConstructedExactlyWhenR51Holds :
    (∃ k ≤ 24, imageS1.length = 2 ^ k) ∧ ∀ p ∈ [smallParam], p.lo ≤ p.hi ∧ p.hi ≤ 0x07FFFFFF ∧
      (∃ k, 2 ≤ k ∧ p.size = 2 ^ k) ∧ 4 ∣ p.lo ∧ 4 ∣ p.hi + 1 ∧ p.bytes.length = p.size := by
  refine ⟨⟨2, by decide, by decide⟩, fun p hp => ?_⟩
  rw [List.mem_singleton.1 hp]
  exact ⟨by decide, by decide, ⟨2, by decide, by decide⟩, by decide, by decide, by decide⟩

theorem witness_BusConstructedExactlyWhenR51Holds_refused : ¬ ∃ k ≤ 24, ([1, 2, 3] : List Byte).length = 2 ^ k := by decide

theorem witness_EveryStepKeepsTheInvariant :
    ((coreWith 0x05000000#32 0x123456FF#32).withFetchWord 32 0x0003D041).Inv ∧
      (nextOf (step ((coreWith 0x05000000#32 0x123456FF#32).withFetchWord 32 0x0003D041))).isSome = true := by decide

theorem witness_LayoutAndReadOnlyBytesNeverChange :
    (nextOf (step ((coreWith 0x05000000#32 0x123456FF#32).withFetchWord 32 0x0003D041))).isSome = true ∧
      (((coreWith 0x05000000#32 0x123456FF#32).withFetchWord 32 0x0003D041).bus.regions[0]?.map (·.cap)) = some .readOnly := by
  decide

end Sys2Proof.Tests
end

/-! SUPPORT. Proofs for spec/10_state.md: the register accessors (R22, R23), and the status word (R31): who writes it,
that no phase of a step reads it, and that the snapshot shows all of it. -/

namespace Sys2Proof.Machine

/-! ### The slots behind the register accessors -/

/-- A write to a stored register sets its slot (R23). -/
theorem writeReg_stored (s : State) {i : RegIdx} (v : Word) (h : i ≠ 0#5) :
    writeReg s i v = { s with gpr := s.gpr.setIfInBounds (i.toNat - 1) v } := by
  simp [writeReg, h]

/-- Slot `k` holds register `k + 1` (R21), so a write to a stored register reaches its own slot and no other (R23). -/
theorem getElem_gpr_writeReg (s : State) {i : RegIdx} (v : Word) (h : i ≠ 0#5) (k : Nat) (hk : k < 31) :
    (writeReg s i v).gpr[k] = if k + 1 = i.toNat then v else s.gpr[k] := by
  have hslot : i.toNat - 1 = k ↔ k + 1 = i.toNat := by
    have := regIdx_pos h
    omega
  simp only [writeReg_stored s v h, Vector.getElem_setIfInBounds, hslot]

/-- Settles O1, from the accessors' rules for register 0 and for a stored register. -/
theorem registerAccessorsKeepZero : Obligations.RegisterAccessorsKeepZero :=
  ⟨readReg_zero, fun s _ _ hi => readReg_stored s hi, writeReg_zero,
    fun s i v hi => ⟨by rw [writeReg_stored s v hi], getElem_gpr_writeReg s v hi⟩⟩

/-! ### Who writes the status word -/

/-- The flags of SUB as R122 writes them, each a statement about the two operands. -/
theorem setFlags_sub32 (p : StatusWord) (x y : Word) :
    setFlags p (sub32 x y) = { p with
      z := decide (x = y)
      s := (x - y).getLsbD 31
      ov := decide ((x ^^^ y) &&& ~~~(y ^^^ (x - y)) &&& 0x80000000#32 ≠ 0#32)
      cy := decide (x.toNat < y.toNat) } := by
  have hz : (x - y == 0#32) = decide (x = y) := by
    rw [beq_eq_decide, decide_eq_decide]
    exact sub_eq_zero
  simp [setFlags, sub32, hz, bne, beq_eq_decide]

/-- However a store ends, it leaves the status word. -/
theorem endStore_psw {s t : State} {r : Except BusError Bus} (h : endStore s r = .next t) : t.psw = s.psw := by
  rcases endStore_cases s r with ⟨b, -, h'⟩ | ⟨e, -, h'⟩ <;> rw [h] at h' <;> cases h' <;> rfl

/-- No meaning but SUB's writes the status word (R31). -/
theorem exec_psw_of_ne_sub {i : Instr} {s t : State} (hi : opcodeOf i ≠ .sub) (h : exec i s = .next t) :
    t.psw = s.psw := by
  cases i with
  | jmp reg1 => cases h; rfl
  | mov imm5 reg2 => cases h; exact writeReg_psw ..
  | sub reg1 reg2 => exact absurd rfl hi
  | movhi imm16 reg1 reg2 => cases h; exact writeReg_psw ..
  | movea imm16 reg1 reg2 => cases h; exact writeReg_psw ..
  | stb reg2 disp16 reg1 => exact endStore_psw h
  | outw reg2 disp16 reg1 => exact endStore_psw h

/-- SUB writes all four flags, whatever its operands (R126). -/
theorem exec_sub_psw {reg1 reg2 : RegIdx} {s t : State} (h : exec (.sub reg1 reg2) s = .next t) :
    t.psw = setFlags s.psw (sub32 (readReg s reg2) (readReg s reg1)) := by
  cases h; rfl

/-- The cycle accounting leaves the status word. -/
theorem retire_psw {i : Instr} {s t : State} (h : retire i (.next s) = .next t) : t.psw = s.psw := by
  rw [retire_next] at h
  cases h
  split <;> rfl

/-- A step that fetches no instruction leaves the status word. -/
theorem step_psw_of_fetch_error {s t u : State} (h : step s = .next t) (hu : fetchInstr s = .error u) :
    t.psw = s.psw := by
  rcases step_cases s with ⟨e, -, hs⟩ | ⟨-, v, hv, hs⟩ | ⟨-, i, hv, -⟩
  · rw [hs] at h; cases h
  · rw [hs] at h
    cases h
    obtain ⟨a, e, -, rfl⟩ := fetchInstr_error hv
    rfl
  · rw [hu] at hv; cases hv

/-- A step that fetches an instruction leaves the status word that the instruction's meaning leaves. -/
theorem step_psw_of_fetch_ok {s t u : State} {i : Instr} (h : step s = .next t) (hu : fetchInstr s = .ok (i, u)) :
    ∃ v, exec i (setPc s (s.pc + instrLength i)) = .next v ∧ t.psw = v.psw := by
  rcases step_cases s with ⟨e, -, hs⟩ | ⟨-, v, hv, -⟩ | ⟨-, j, hv, hs⟩
  · rw [hs] at h; cases h
  · rw [hu] at hv; cases hv
  · rw [hu] at hv
    cases hv
    obtain ⟨v, hv, -⟩ := exec_cases i (setPc s (s.pc + instrLength i))
    rw [hs, hv] at h
    exact ⟨v, hv, retire_psw h⟩

/-! ### Nothing reads the status word -/

theorem writeReg_setPsw (s : State) (p : StatusWord) (i : RegIdx) (v : Word) :
    writeReg (setPsw s p) i v = setPsw (writeReg s i v) p := by
  unfold writeReg
  split <;> rfl

/-- However a store ends, it carries the status word along unread. -/
theorem endStore_setPsw {s t : State} {r : Except BusError Bus} (p : StatusWord) (h : endStore s r = .next t) :
    endStore (setPsw s p) r = .next (setPsw t p) := by
  cases r with
  | ok b => cases h; rfl
  | error e => cases h; rfl

/-- Phases 1 to 3 read the PC, the bus and the opcode map alone: the status word goes through them. -/
theorem fetchInstr_setPsw (s : State) (p : StatusWord) :
    fetchInstr (setPsw s p) =
      ((fetchInstr s).mapError (setPsw · p)).map fun r => (r.1, setPsw r.2 p) := by
  rcases fetchInstr_cases s with ⟨h1, h⟩ | ⟨u1, h1, hd, h⟩ | ⟨u1, op, h1, hd, hf, h2, h⟩ |
    ⟨u1, op, u2, h1, hd, hf, h2, h⟩ | ⟨u1, op, h1, hd, hf, h⟩
  all_goals
    rw [h]
    simp only [fetchInstr, setPsw_pc, setPsw_bus, setPsw_opcodeMap, *]
    rfl

/-- Phase 4 reads no status word: another one changes at most the status word left. -/
theorem exec_setPsw {i : Instr} {s t : State} (p : StatusWord) (h : exec i s = .next t) :
    ∃ q, exec i (setPsw s p) = .next (setPsw t q) := by
  cases i with
  | jmp reg1 => cases h; exact ⟨p, rfl⟩
  | mov imm5 reg2 => cases h; exact ⟨p, congrArg Host.Outcome.next (writeReg_setPsw ..)⟩
  | sub reg1 reg2 =>
    cases h
    refine ⟨setFlags p (sub32 (readReg s reg2) (readReg s reg1)), ?_⟩
    simp only [exec, execSub, readReg_setPsw, writeReg_setPsw]
    rfl
  | movhi imm16 reg1 reg2 => cases h; exact ⟨p, congrArg Host.Outcome.next (writeReg_setPsw ..)⟩
  | movea imm16 reg1 reg2 => cases h; exact ⟨p, congrArg Host.Outcome.next (writeReg_setPsw ..)⟩
  | stb reg2 disp16 reg1 => exact ⟨p, endStore_setPsw p h⟩
  | outw reg2 disp16 reg1 => exact ⟨p, endStore_setPsw p h⟩

/-- Phase 5 reads no status word. -/
theorem retire_setPsw {i : Instr} {s t : State} (q : StatusWord) (h : retire i (.next s) = .next t) :
    retire i (.next (setPsw s q)) = .next (setPsw t q) := by
  rw [retire_next] at h ⊢
  cases h
  rw [setPsw_fault]
  split <;> rfl

/-- A step from a state with another status word differs in the status word alone (R31). -/
theorem step_setPsw {s t : State} (p : StatusWord) (h : step s = .next t) :
    ∃ q, step (setPsw s p) = .next (setPsw t q) := by
  rcases step_cases s with ⟨e, -, hs⟩ | ⟨hf, u, hu, hs⟩ | ⟨hf, i, hu, hs⟩
  · rw [hs] at h; cases h
  · rw [hs] at h
    cases h
    exact ⟨p, by rw [step_running (s := setPsw s p) hf, fetchInstr_setPsw, hu]; rfl⟩
  · obtain ⟨v, hv, -⟩ := exec_cases i (setPc s (s.pc + instrLength i))
    obtain ⟨q, hq⟩ := exec_setPsw p hv
    rw [hs, hv] at h
    refine ⟨q, ?_⟩
    rw [step_running (s := setPsw s p) hf, fetchInstr_setPsw, hu, ← retire_setPsw q h, ← hq]
    rfl

/-- The one way a step answers a fault: the core is halted (R101). -/
theorem step_fault {s : State} {f : Fault} (h : step s = .fault f) : ∃ e, s.fault = some e ∧ f = .halted e := by
  rcases step_cases s with ⟨e, he, hs⟩ | ⟨-, u, -, hs⟩ | ⟨-, i, -, hs⟩
  · rw [hs] at h; cases h; exact ⟨e, he, rfl⟩
  · rw [hs] at h; cases h
  · obtain ⟨v, hv, -⟩ := exec_cases i (setPc s (s.pc + instrLength i))
    rw [hs, hv, retire_next] at h
    cases h

/-! ### The snapshot shows every field -/

/-- A bit of a packed table is set when some entry at its position is. -/
theorem getLsbD_packBits (t : List (Nat × Bool)) {j : Nat} (hj : j < 32) :
    (packBits t).getLsbD j = t.any fun e => e.1 == j && e.2 := by
  induction t with
  | nil => simp [packBits]
  | cons e t ih =>
    obtain ⟨k, b⟩ := e
    have hbit : ((BitVec.ofBool b).setWidth 32 <<< k).getLsbD j = (k == j && b) := by
      rw [BitVec.getLsbD_shiftLeft, BitVec.getLsbD_setWidth, BitVec.getLsbD_ofBool]
      by_cases hk : k = j
      · simp [hk, hj]
      · have hne : ¬ (j - k = 0 ∧ ¬ j < k) := by omega
        grind
    simp only [packBits, BitVec.getLsbD_or, hbit, ih, List.any_cons]

/-- Reading the snapshot back at every position of the table gives the table: no two fields share a bit. -/
theorem snapshotTable_eq_map_snapshot (p : StatusWord) :
    snapshotTable p = [0, 1, 2, 3, 4, 5, 6, 7, 8, 12, 13, 14, 15, 16, 17, 18, 19].map
      fun k => (k, (snapshot p).getLsbD k) := by
  simp only [snapshot, List.map_cons, List.map_nil, getLsbD_packBits, Nat.reduceLT]
  simp [snapshotTable]

/-- The table lists every field. -/
theorem snapshotTable_inj {p q : StatusWord} (h : snapshotTable p = snapshotTable q) : p = q := by
  obtain ⟨z, s, ov, cy, fp0, fp1, fp2, fp3, fp4, id, ae, ep, np, i⟩ := p
  obtain ⟨z', s', ov', cy', fp0', fp1', fp2', fp3', fp4', id', ae', ep', np', i'⟩ := q
  simp only [snapshotTable, List.cons.injEq, Prod.mk.injEq, true_and, and_true] at h
  obtain ⟨rfl, rfl, rfl, rfl, rfl, rfl, rfl, rfl, rfl, rfl, rfl, rfl, rfl, h0, h1, h2, h3⟩ := h
  have hi : i = i' := by
    apply BitVec.eq_of_getLsbD_eq
    intro k hk
    interval_cases k <;> assumption
  rw [hi]

theorem snapshot_inj {p q : StatusWord} (h : snapshot p = snapshot q) : p = q :=
  snapshotTable_inj (by rw [snapshotTable_eq_map_snapshot p, h, ← snapshotTable_eq_map_snapshot q])

/-- Settles O27: by the case lemma of the step, phase by phase; and by the snapshot's injectivity. -/
theorem onlySubWritesFlagsAndNothingReadsThem : Obligations.OnlySubWritesFlagsAndNothingReadsThem := by
  refine ⟨fun s t h => ⟨fun u hu => step_psw_of_fetch_error h hu, fun i u hu hi => ?_, fun reg1 reg2 u hu => ?_⟩,
    fun s p => ⟨fun t h => step_setPsw p h, fun f h => ?_⟩, fun s s' h => snapshot_inj h⟩
  · obtain ⟨v, hv, ht⟩ := step_psw_of_fetch_ok h hu
    rw [ht, exec_psw_of_ne_sub hi hv, setPc_psw]
  · obtain ⟨v, hv, ht⟩ := step_psw_of_fetch_ok h hu
    rw [ht, exec_sub_psw hv, setPc_psw, readReg_setPc, readReg_setPc, setFlags_sub32]
  · obtain ⟨e, he, rfl⟩ := step_fault h
    exact step_halted (s := setPsw s p) he

end Sys2Proof.Machine

/-! SUPPORT. Proofs for spec/20_memory.md: the high address bits that every bus operation discards (R46), and the ROM
window, which reads the image by masking on every constructed bus and after every run (R49). -/

namespace Sys2Proof.Machine

/-! ### The discarded address bits -/

/-- The low 27 bits, as R46 writes them with a mask. -/
theorem a27_toNat_eq_mask (addr : Word) : (a27 addr).toNat = (addr &&& 0x07FFFFFF#32).toNat := by
  rw [a27_toNat, BitVec.toNat_and]
  exact (Nat.and_two_pow_sub_one_eq_mod addr.toNat 27).symm

theorem a27_eq_of_mask_eq {a b : Word} (h : a &&& 0x07FFFFFF#32 = b &&& 0x07FFFFFF#32) : a27 a = a27 b :=
  BitVec.eq_of_toNat_eq (by rw [a27_toNat_eq_mask, h, ← a27_toNat_eq_mask])

/-- Masking works bit by bit, so it commutes with the reduction; the operations align addresses this way (R54, R56). -/
theorem a27_and (a m : Word) : a27 (a &&& m) = a27 a &&& a27 m := BitVec.setWidth_and

/-- Addition carries into no lower bit, so it commutes with the reduction. -/
theorem a27_add (a b : Word) : a27 (a + b) = a27 a + a27 b := BitVec.setWidth_add a b (by decide)

/-- A byte read sees the caller's address only through its reduction, but for the address its error names. -/
theorem readByte_kind_congr (bus : Bus) {a b : Word} (h : a27 a = a27 b) :
    (readByte bus a).mapError (·.kind) = (readByte bus b).mapError (·.kind) := by
  rcases readByte_cases bus a with ⟨hr, ha⟩ | ⟨p, hr, ha⟩ <;> rw [h] at hr
  · rw [ha, readByte_unmapped hr]; rfl
  · rw [ha, readByte_resolved hr]

/-- Up to the address an error names, a halfword read is its two byte reads in sequence (R54). -/
theorem readHalfword_kind (bus : Bus) (addr : Word) :
    (readHalfword bus addr).mapError (·.kind) =
      ((readByte bus (halfwordAddr addr)).mapError (·.kind)).bind fun lo =>
        ((readByte bus (halfwordAddr addr + 1#32)).mapError (·.kind)).map fun hi => joinBytes hi lo := by
  unfold readHalfword
  cases readByte bus (halfwordAddr addr) with
  | error e => rfl
  | ok lo => cases readByte bus (halfwordAddr addr + 1#32) <;> rfl

theorem readHalfword_kind_congr (bus : Bus) {a b : Word} (h : a27 a = a27 b) :
    (readHalfword bus a).mapError (·.kind) = (readHalfword bus b).mapError (·.kind) := by
  have hlo : a27 (halfwordAddr a) = a27 (halfwordAddr b) := by simp only [halfwordAddr, a27_and, h]
  have hhi : a27 (halfwordAddr a + 1#32) = a27 (halfwordAddr b + 1#32) := by simp only [a27_add, hlo]
  rw [readHalfword_kind, readHalfword_kind, readByte_kind_congr bus hlo, readByte_kind_congr bus hhi]

/-- The write rule sees the address it writes only through its reduction, and the caller's address only in errors. -/
theorem writeThrough_kind_congr (bus : Bus) (a b : Word) {target target' : Word} (f : Nat → Memory → Memory)
    (h : a27 target = a27 target') :
    (writeThrough bus a target f).mapError (·.kind) = (writeThrough bus b target' f).mapError (·.kind) := by
  simp only [writeThrough, h]
  cases resolve bus (a27 target') with
  | none => rfl
  | some p =>
    dsimp only
    cases p.region.cap <;> rfl

/-- Settles O35: each operation sees an address through `a27` alone, which is the masked address. -/
theorem highAddressBitsAreDiscarded : Obligations.HighAddressBitsAreDiscarded := by
  refine ⟨a27_toNat_eq_mask, fun bus a b hab => ?_⟩
  have h := a27_eq_of_mask_eq hab
  have hword : a27 (wordAddr a) = a27 (wordAddr b) := by simp only [wordAddr, a27_and, h]
  exact ⟨readByte_kind_congr bus h, readHalfword_kind_congr bus h,
    fun _ => writeThrough_kind_congr bus a b _ h, fun _ => writeThrough_kind_congr bus a b _ hword⟩

/-! ### The bus along a run -/

/-- What a step can do to the bus: leave it, or write one read-write region. -/
theorem step_bus {s t : State} (h : step s = .next t) : t.bus = s.bus ∨ BusWritten s.bus t.bus := by
  rcases step_cases s with ⟨e, -, hs⟩ | ⟨-, u, hu, hs⟩ | ⟨-, i, -, hs⟩
  · rw [hs] at h; cases h
  · obtain ⟨a, e, -, rfl⟩ := fetchInstr_error hu
    rw [hs] at h
    cases h
    exact .inl rfl
  · obtain ⟨v, hv, hbus, -⟩ := exec_cases i (setPc s (s.pc + instrLength i))
    rw [hs, hv, retire_next] at h
    cases h
    split <;> exact hbus

/-- A call of `step` either changes nothing or moves to the next state that the step answers. -/
theorem afterStep_cases (s : State) : afterStep s = s ∨ step s = .next (afterStep s) := by
  unfold afterStep
  cases h : step s with
  | next t => exact .inr rfl
  | fault f => exact .inl rfl
  | refused r => exact .inl rfl

/-- What every step that answers a next state keeps, every run keeps. -/
theorem drive_keeps {P : State → Prop} (hstep : ∀ s t, step s = .next t → P s → P t) (n : Nat) {s : State} (h : P s) :
    P (drive n s) := by
  induction n generalizing s with
  | zero => exact h
  | succ n ih =>
    refine ih ?_
    rcases afterStep_cases s with hs | hs
    · rwa [hs]
    · exact hstep s _ hs h

/-- A step changes no read-only region. -/
theorem step_readOnly {s t : State} (h : step s = .next t) {k : Nat} {r : Region} (hc : r.cap = .readOnly)
    (hr : s.bus.regions[k]? = some r) : t.bus.regions[k]? = some r := by
  rcases step_bus h with hb | hb
  · rwa [hb]
  · exact hb.readOnly hr hc

/-- No run changes a read-only region. -/
theorem drive_readOnly (n : Nat) {s : State} {k : Nat} {r : Region} (hc : r.cap = .readOnly)
    (hr : s.bus.regions[k]? = some r) : (drive n s).bus.regions[k]? = some r :=
  drive_keeps (P := fun s => s.bus.regions[k]? = some r) (fun _ _ h => step_readOnly h hc) n hr

/-! ### The ROM window -/

/-- A constructed bus has the ROM region of a well-formed image first (R49, R50). -/
theorem constructBus_ok {image : List Byte} {extra : List RegionParam} {bus : Bus}
    (h : constructBus image extra = .ok bus) :
    bus.regions = romRegion image :: extra.map RegionParam.toRegion ∧ (romRegion image).romWf = true := by
  have hwf := constructBus_wf h
  unfold constructBus at h
  split at h
  · cases h; exact ⟨rfl, (Bus.wf_cons.1 hwf).1⟩
  · cases h

/-- The ROM's window begins at a multiple of its size: the size is a power of two, at most 2^24. -/
theorem Region.romWf_size_dvd_lo {r : Region} (h : r.romWf = true) : r.size ∣ r.lo := by
  obtain ⟨hlo, -, -, -, hmax, hpow, -⟩ := Region.romWf_iff.1 h
  obtain ⟨k, hk⟩ := isPowerOfTwo_iff.1 hpow
  have hk24 : k ≤ 24 := (Nat.pow_le_pow_iff_right (by decide)).1 (hk ▸ hmax : 2 ^ k ≤ 2 ^ 24)
  rw [hlo, hk]
  exact (Nat.pow_dvd_pow 2 hk24).trans ⟨7, rfl⟩

/-- In the ROM window the offset is the address itself masked by the size less 1 (R49): the base drops out. -/
theorem Region.romWf_offset {r : Region} (h : r.romWf = true) {a : PAddr} (ha : r.lo ≤ a.toNat) :
    r.offset a = a.toNat &&& (r.size - 1) := by
  obtain ⟨-, -, -, -, -, hpow, -⟩ := Region.romWf_iff.1 h
  obtain ⟨c, hc⟩ := Region.romWf_size_dvd_lo h
  obtain ⟨k, hk⟩ := isPowerOfTwo_iff.1 hpow
  calc r.offset a = (a.toNat - r.size * c) % r.size := by rw [Region.offset_eq_mod a hpow, hc]
    _ = a.toNat % r.size := Nat.sub_mul_mod (hc ▸ ha)
    _ = a.toNat &&& (r.size - 1) := by rw [hk, Nat.and_two_pow_sub_one_eq_mod]

/-- The ROM window reaches up to the last 27-bit address (R49). -/
theorem Region.romWf_covers {r : Region} (h : r.romWf = true) {a : PAddr} (ha : r.lo ≤ a.toNat) : r.covers a = true := by
  obtain ⟨-, hhi, -⟩ := Region.romWf_iff.1 h
  refine Region.covers_iff.2 ⟨ha, ?_⟩
  rw [hhi]
  exact Nat.le_of_lt_succ a.isLt

/-- Every bus whose first region is an image's ROM region reads the image in the ROM window, by masking (R49). -/
theorem readByte_rom {image : List Byte} {bus : Bus} (hrom : (romRegion image).romWf = true)
    (hbus : bus.regions[0]? = some (romRegion image)) {addr : Word} (ha : Config.romLo ≤ (a27 addr).toNat) :
    ∃ h : ((a27 addr).toNat &&& (image.length - 1)) < image.length,
      readByte bus addr = .ok image[(a27 addr).toNat &&& (image.length - 1)] := by
  have hoff : (romRegion image).offset (a27 addr) = (a27 addr).toNat &&& (image.length - 1) :=
    Region.romWf_offset hrom ha
  have hpos : 1 ≤ image.length := by
    obtain ⟨-, -, -, hpos, -⟩ := Region.romWf_iff.1 hrom
    exact hpos
  have hlt : ((a27 addr).toNat &&& (image.length - 1)) < image.length := hoff ▸ Region.offset_lt (a27 addr) hpos
  refine ⟨hlt, ?_⟩
  obtain ⟨_ | ⟨r, rs⟩⟩ := bus
  · cases hbus
  · cases hbus
    rw [readByte_resolved (resolve_head (Region.romWf_covers hrom ha)), hoff]
    have hread := Memory.read_ofBytes image 0 _ hlt
    rw [Nat.zero_add] at hread
    exact congrArg Except.ok hread

/-- Settles O41: construction puts the image's ROM region first, no run changes it, and its window reads the image. -/
theorem romHoldsTheImageForever : Obligations.RomHoldsTheImageForever := by
  intro image extra bus h
  obtain ⟨hregions, hrom⟩ := constructBus_ok h
  refine ⟨⟨romRegion image, by rw [hregions]; rfl, rfl⟩, fun n s addr hs ha => ?_⟩
  have hhead : s.bus.regions[0]? = some (romRegion image) := by rw [hs, hregions]; rfl
  exact readByte_rom hrom (drive_readOnly n rfl hhead) ha

end Sys2Proof.Machine

/-! SUPPORT. Proofs for spec/30_encoding.md: the cycle cost (R88), which phase 5 adds exactly where the step succeeded
(R107). -/

namespace Sys2Proof.Machine

/-- The cost table of R88 has one row of its own, JMP's. -/
theorem cycleCost_eq (op : Opcode) : cycleCost op = if op = .jmp then 3 else 1 := by
  cases op <;> rfl

/-- Phase 5 leaves the latch, and reads from it whether the cost is added (R107). -/
theorem retire_fault_cycles {i : Instr} {s t : State} (h : retire i (.next s) = .next t) :
    t.fault = s.fault ∧ t.cycles = s.cycles + if s.fault = none then cycleCost (opcodeOf i) else 0 := by
  rw [retire_next] at h
  cases h
  by_cases hf : s.fault = none
  · simp [hf]
  · simp [hf]

/-- A step that fetches no instruction sets the latch and adds no cycles (R109). -/
theorem fetchInstr_error_fault_cycles {s t : State} (h : fetchInstr s = .error t) :
    t.fault ≠ none ∧ t.cycles = s.cycles := by
  obtain ⟨a, e, -, rfl⟩ := fetchInstr_error h
  exact ⟨Option.some_ne_none e, rfl⟩

/-- Settles O24: a step without an instruction fails and adds nothing; phases 1 to 4 of any other leave the counter,
and phase 5 adds the cost where they left the latch clear. -/
theorem cyclesAddedOnlyBySuccessfulSteps : Obligations.CyclesAddedOnlyBySuccessfulSteps := by
  intro s t h
  rcases step_cases s with ⟨e, -, hs⟩ | ⟨-, u, hu, hs⟩ | ⟨-, i, hi, hs⟩
  · rw [hs] at h; cases h
  · rw [hs] at h
    cases h
    obtain ⟨hfault, hcycles⟩ := fetchInstr_error_fault_cycles hu
    exact ⟨fun hclear => absurd hclear hfault, fun _ => hcycles⟩
  · obtain ⟨v, hv, -, -, -, hexec, -⟩ := exec_cases i (setPc s (s.pc + instrLength i))
    rw [hs, hv] at h
    obtain ⟨hfault, hcycles⟩ := retire_fault_cycles h
    rw [hexec, setPc_cycles, ← hfault, cycleCost_eq] at hcycles
    exact ⟨fun hclear => ⟨i, _, hi, by rw [hcycles, if_pos hclear]⟩, fun hset => by rw [hcycles, if_neg hset]; rfl⟩

end Sys2Proof.Machine

/-! SUPPORT. Proofs for spec/41_control.md: which phase of a step writes the PC (R116). -/

namespace Sys2Proof.Machine

/-- However a store ends, it leaves the PC behind the store (R109, R141). -/
theorem endStore_pc {s t : State} {r : Except BusError Bus} (h : endStore s r = .next t) : t.pc = s.pc := by
  rcases endStore_cases s r with ⟨b, -, h'⟩ | ⟨e, -, h'⟩ <;> rw [h] at h' <;> cases h' <;> rfl

/-- No meaning but JMP's writes the PC (R116). -/
theorem exec_pc_of_ne_jmp {i : Instr} {s t : State} (hi : opcodeOf i ≠ .jmp) (h : exec i s = .next t) :
    t.pc = s.pc := by
  cases i with
  | jmp reg1 => exact absurd rfl hi
  | mov imm5 reg2 => cases h; exact writeReg_pc ..
  | sub reg1 reg2 => cases h; exact writeReg_pc ..
  | movhi imm16 reg1 reg2 => cases h; exact writeReg_pc ..
  | movea imm16 reg1 reg2 => cases h; exact writeReg_pc ..
  | stb reg2 disp16 reg1 => exact endStore_pc h
  | outw reg2 disp16 reg1 => exact endStore_pc h

/-- JMP takes the PC to `x[reg1]` and writes no register (R115). -/
theorem exec_jmp_pc_sameRegs {reg1 : RegIdx} {s t : State} (h : exec (.jmp reg1) s = .next t) :
    t.pc = readReg s reg1 ∧ SameRegs s t := by
  cases h
  exact ⟨rfl, readReg_setPc s _⟩

/-- The cycle accounting leaves the PC and the registers. -/
theorem retire_pc_sameRegs {i : Instr} {s t : State} (h : retire i (.next s) = .next t) :
    t.pc = s.pc ∧ SameRegs s t := by
  rw [retire_next] at h
  cases h
  split
  · exact ⟨rfl, readReg_addCycles s _⟩
  · exact ⟨rfl, fun _ => rfl⟩

/-- A step that fetches an instruction leaves the PC and the registers that the instruction's meaning leaves. -/
theorem step_pc_sameRegs_of_fetch_ok {s t u : State} {i : Instr} (hs : s.fault = none)
    (hu : fetchInstr s = .ok (i, u)) (h : step s = .next t) :
    ∃ v, exec i u = .next v ∧ t.pc = v.pc ∧ SameRegs v t := by
  obtain ⟨v, hv, -⟩ := exec_cases i u
  have hstep : step s = retire i (exec i u) := by rw [step_running hs, hu]
  rw [hstep, hv] at h
  exact ⟨v, hv, retire_pc_sameRegs h⟩

/-- Settles O26: phases 1 to 3 put the PC behind the instruction, phase 5 leaves it, and of the meanings between them
JMP's alone writes it. -/
theorem onlyJmpWritesThePc : Obligations.OnlyJmpWritesThePc := by
  intro s t u i hs hu h
  obtain ⟨v, hv, hpc, hregs⟩ := step_pc_sameRegs_of_fetch_ok hs hu h
  have hadvance := fetchInstr_ok hu
  subst hadvance
  refine ⟨rfl, fun hi => hpc.trans (exec_pc_of_ne_jmp hi hv), ?_⟩
  rintro reg1 rfl
  obtain ⟨htarget, hkept⟩ := exec_jmp_pc_sameRegs hv
  exact ⟨hpc.trans htarget, fun r => (hregs r).trans (hkept r)⟩

end Sys2Proof.Machine

/-! SUPPORT. Proofs for spec/42_alu.md: the operand extensions (R121, R123, R124), subtract-and-flags as SUB uses it
(R122, R126), and MOV from the fetch to the cycle counter (R125). -/

namespace Sys2Proof.Machine

/-! ### Operand extensions -/

/-- A sign extension repeats the last bit of its operand above it. -/
theorem getLsbD_signExtend_of_lt {w n : Nat} (v : BitVec w) {k : Nat} (hk : k < n) :
    (v.signExtend n).getLsbD k = v.getLsbD (if k < w then k else w - 1) := by
  rw [BitVec.getLsbD_signExtend, BitVec.msb_eq_getLsbD_last, apply_ite v.getLsbD]
  simp [hk]

/-- R123's two cases: imm5 itself, or with bits 31..5 set. -/
theorem sextImm5_toNat (v : BitVec 5) :
    (sextImm5 v).toNat = if v.getLsbD 4 then v.toNat + 0xFFFFFFE0 else v.toNat := by
  have hlow : (v.setWidth 32).toNat = v.toNat := BitVec.toNat_setWidth_of_le (by decide)
  have hsign : v.msb = v.getLsbD 4 := BitVec.msb_eq_getLsbD_last v
  rw [sextImm5, BitVec.toNat_signExtend, hlow, hsign]
  cases v.getLsbD 4 with
  | false => rfl
  | true => rfl

/-- imm16 stands in bits 31..16, with zeros below (R124). -/
theorem getLsbD_highHalf (v : BitVec 16) {k : Nat} (hk : k < 32) :
    (highHalf v).getLsbD k = if k < 16 then false else v.getLsbD (k - 16) := by
  have hshift : k - 16 < 32 := by omega
  rw [highHalf, BitVec.getLsbD_shiftLeft, BitVec.getLsbD_setWidth]
  by_cases hlow : k < 16
  · simp [hlow]
  · simp [hlow, hk, hshift]

/-- Settles O2, from the bits of a sign extension, its signed value, and the bits of a shifted value. -/
theorem aluFunctionsAndExtensions : Obligations.AluFunctionsAndExtensions :=
  ⟨BitVec.toNat_add,
    fun v => ⟨fun _ hk => getLsbD_signExtend_of_lt v hk, BitVec.toInt_signExtend_of_le (by decide), sextImm5_toNat v⟩,
    fun v => ⟨fun _ hk => getLsbD_signExtend_of_lt v hk, BitVec.toInt_signExtend_of_le (by decide)⟩,
    fun v _ hk => getLsbD_highHalf v hk⟩

/-! ### Subtract-and-flags (R122) -/

/-- The result is the difference modulo 2^32. -/
theorem sub32_result_toNat (x y : Word) :
    (sub32 x y).result.toNat = (x.toNat + (2 ^ 32 - y.toNat)) % 2 ^ 32 := by
  rw [Nat.add_comm]
  exact BitVec.toNat_sub x y

theorem sub32_z_iff (x y : Word) : (sub32 x y).z = true ↔ (sub32 x y).result = 0#32 := beq_iff_eq

/-- S is bit 31 of the result, which is set from 2^31 on. -/
theorem sub32_s_iff (x y : Word) : (sub32 x y).s = true ↔ 2 ^ 31 ≤ (sub32 x y).result.toNat := by
  have hbit : (sub32 x y).s = (sub32 x y).result.msb := (BitVec.msb_eq_getLsbD_last _).symm
  rw [hbit, BitVec.msb_eq_decide, decide_eq_true_iff]

theorem sub32_ov_iff (x y : Word) : (sub32 x y).ov = true ↔
    ((x ^^^ y) &&& ~~~(y ^^^ (sub32 x y).result) &&& 0x80000000#32) ≠ 0#32 := bne_iff_ne

theorem sub32_cy_iff (x y : Word) : (sub32 x y).cy = true ↔ x.toNat < y.toNat := decide_eq_true_iff

/-! ### What a register-writing meaning leaves -/

/-- A state whose bus is the same reads the same at every address. -/
theorem sameMemory_of_bus_eq {s t : State} (h : t.bus = s.bus) : SameMemory s t :=
  ⟨h, fun a => by rw [h]⟩

/-- A register write is what the frame says of one (R22, R23). -/
theorem writeReg_writesReg (s : State) (d : RegIdx) (v : Word) : WritesReg s (writeReg s d v) d v :=
  fun r => readReg_writeReg s d r v

/-- SUB completes with the difference written and the four flags set (R126). -/
theorem exec_sub (reg1 reg2 : RegIdx) (s : State) :
    exec (.sub reg1 reg2) s = .next (setPsw
      (writeReg s reg2 (sub32 (readReg s reg2) (readReg s reg1)).result)
      (setFlags s.psw (sub32 (readReg s reg2) (readReg s reg1)))) := rfl

/-- Settles O5: SUB's state, its flags by the four laws of `sub32`, its frame by the laws of the state's updates. -/
theorem subWritesResultAndFourFlags : Obligations.SubWritesResultAndFourFlags := by
  intro s reg1 reg2
  refine ⟨_, _, exec_sub reg1 reg2 s, sub32_result_toNat .., ?regs, sub32_z_iff .., sub32_s_iff .., sub32_ov_iff ..,
    sub32_cy_iff .., ?inert, ?pc, ?cycles, ?fault, ?memory, ?opcodeMap⟩
  case regs => exact writeReg_writesReg s reg2 _
  case inert => rfl
  case pc => exact writeReg_pc ..
  case cycles => exact writeReg_cycles ..
  case fault => exact writeReg_fault ..
  case memory => exact sameMemory_of_bus_eq (writeReg_bus ..)
  case opcodeMap => exact writeReg_opcodeMap ..

/-! ### The whole MOV (R125) -/

/-- Under a well-formed map, phases 1 to 3 read a unit with the number of a one-unit opcode as that instruction, and
leave the PC 2 further (R102 to R104). -/
theorem fetchInstr_of_one_unit {s : State} {u1 : Halfword} {op : Opcode} (hm : s.opcodeMap.WellFormed)
    (hread : readHalfword s.bus s.pc = .ok u1) (hop : s.opcodeMap.number op = opcodeField u1)
    (hone : hasSecondUnit (formatOf op) = false) :
    fetchInstr s = .ok (assemble op u1 placeholderUnit, setPc s (s.pc + 2#32)) := by
  simp [fetchInstr, hread, decodeWith_of_number hm hop, hone]

/-- MOV completes with the sign-extended immediate written (R125). -/
theorem exec_mov (imm5 : BitVec 5) (reg2 : RegIdx) (s : State) :
    exec (.mov imm5 reg2) s = .next (writeReg s reg2 (sextImm5 imm5)) := rfl

/-- Where the latch is clear, phase 5 on a completed MOV adds 1 cycle (R88, R107). -/
theorem retire_mov {imm5 : BitVec 5} {reg2 : RegIdx} {t : State} (h : t.fault = none) :
    retire (.mov imm5 reg2) (.next t) = .next (addCycles t 1) := by
  rw [retire_next, if_pos h]
  rfl

/-- A step that fetches a MOV unit: the PC behind it, the immediate written, 1 cycle added. -/
theorem step_of_mov_unit {s : State} {u1 : Halfword} (hm : s.opcodeMap.WellFormed) (hs : s.fault = none)
    (hread : readHalfword s.bus s.pc = .ok u1) (hmov : opcodeField u1 = s.opcodeMap.mov) :
    step s = .next (addCycles
      (writeReg (setPc s (s.pc + 2#32)) (reg2Field u1) (sextImm5 (imm5Field u1))) 1) := by
  have hfetch : fetchInstr s = .ok (.mov (imm5Field u1) (reg2Field u1), setPc s (s.pc + 2#32)) :=
    fetchInstr_of_one_unit (op := .mov) hm hread hmov.symm rfl
  have hclear : (writeReg (setPc s (s.pc + 2#32)) (reg2Field u1) (sextImm5 (imm5Field u1))).fault = none :=
    (writeReg_fault ..).trans hs
  rw [step_running hs, hfetch]
  exact (congrArg (retire _) (exec_mov ..)).trans (retire_mov hclear)

/-- The sign-extended imm5 of a unit, in the unit's own bits (R78, R123). -/
theorem getLsbD_sextImm5_imm5Field (u1 : Halfword) {k : Nat} (hk : k < 32) :
    (sextImm5 (imm5Field u1)).getLsbD k = u1.getLsbD (if k < 5 then k else 4) := by
  have hfield : (if k < 5 then k else 4) < 5 := by split <;> omega
  rw [sextImm5, getLsbD_signExtend_of_lt _ hk, imm5Field, BitVec.getLsbD_extractLsb', Nat.zero_add]
  simp [hfield]

/-- Settles O16: the state a MOV step leaves, read field by field. -/
theorem movStepIsRuleR125 : Obligations.MovStepIsRuleR125 := by
  refine ⟨rfl, fun s u1 hm hs hread hmov => ?_⟩
  refine ⟨_, _, step_of_mov_unit hm hs hread hmov, fun k hk => getLsbD_sextImm5_imm5Field u1 hk, ?regs, ?pc, ?psw,
    ?cycles, ?fault, ?memory, ?opcodeMap⟩
  case regs => exact writeReg_writesReg (setPc s (s.pc + 2#32)) (reg2Field u1) _
  case pc => exact writeReg_pc ..
  case psw => exact writeReg_psw ..
  case cycles => exact congrArg (· + 1) (writeReg_cycles ..)
  case fault => exact (writeReg_fault ..).trans hs
  case memory => exact sameMemory_of_bus_eq (writeReg_bus ..)
  case opcodeMap => exact writeReg_opcodeMap ..

end Sys2Proof.Machine

/-! SUPPORT. Proofs for spec/43_store.md: the one addressing mode of the stores (R140), and what a store leaves of the
registers. -/

namespace Sys2Proof.Machine

/-! ### The effective address (R140) -/

/-- A sign-extended displacement, read unsigned, is its signed value modulo 2^32 (R124). -/
theorem sext16_toNat (v : BitVec 16) : ((sext16 v).toNat : Int) = v.toInt % 2 ^ 32 := by
  have hnonneg : 0 ≤ v.toInt % 2 ^ 32 := Int.emod_nonneg _ (by decide)
  calc ((sext16 v).toNat : Int)
      = ((v.toInt % 2 ^ 32).toNat : Int) := congrArg Nat.cast (BitVec.toNat_ofInt v.toInt)
    _ = v.toInt % 2 ^ 32 := Int.toNat_of_nonneg hnonneg

/-- `x[reg1]` plus the signed displacement, modulo 2^32. -/
theorem effectiveAddress_toNat (s : State) (reg1 : RegIdx) (d : BitVec 16) :
    ((effectiveAddress s reg1 d).toNat : Int) = ((readReg s reg1).toNat + d.toInt) % 2 ^ 32 := by
  calc ((effectiveAddress s reg1 d).toNat : Int)
      = ((readReg s reg1).toNat + (sext16 d).toNat) % 2 ^ 32 :=
        congrArg Nat.cast (BitVec.toNat_add (readReg s reg1) (sext16 d))
    _ = ((readReg s reg1).toNat + d.toInt) % 2 ^ 32 := by rw [sext16_toNat, Int.add_emod_emod]

/-- Register 0 as base gives the absolute form: the displacement alone. -/
theorem effectiveAddress_zero (s : State) (d : BitVec 16) : effectiveAddress s 0#5 d = d.signExtend 32 := by
  rw [effectiveAddress, readReg_zero, add32, BitVec.zero_add, sext16]

/-! ### How a store ends -/

/-- ST.B ends as its bus write of the low byte does (R141). -/
theorem exec_stb (reg2 : RegIdx) (d : BitVec 16) (reg1 : RegIdx) (s : State) :
    exec (.stb reg2 d reg1) s =
      endStore s (writeByte s.bus (effectiveAddress s reg1 d) ((readReg s reg2).extractLsb' 0 8)) := rfl

/-- OUT.W ends as its bus write of the whole register does (R142). -/
theorem exec_outw (reg2 : RegIdx) (d : BitVec 16) (reg1 : RegIdx) (s : State) :
    exec (.outw reg2 d reg1) s = endStore s (writeWord s.bus (effectiveAddress s reg1 d) (readReg s reg2)) := rfl

/-- A store that the bus accepts replaces the bus and nothing else. -/
theorem endStore_ok (s : State) (b : Bus) : endStore s (.ok b) = .next (setBus s b) := rfl

/-- However a store ends, no register is modified: the base register is not updated either (R140). -/
theorem endStore_sameRegs {s t : State} {r : Except BusError Bus} (h : endStore s r = .next t) : SameRegs s t := by
  rcases endStore_cases s r with ⟨b, -, hstored⟩ | ⟨e, -, hlatched⟩
  · cases hstored.symm.trans h
    exact readReg_setBus s b
  · cases hlatched.symm.trans h
    exact readReg_latch s _

/-- Settles O3: the address by its sum, the two stores by how a store ends. -/
theorem effectiveAddressRegisterPlusDisplacement : Obligations.EffectiveAddressRegisterPlusDisplacement := by
  intro s reg1 reg2 d
  refine ⟨effectiveAddress_toNat s reg1 d, ?zero, ?stb, ?outw, ?regs⟩
  case zero =>
    rintro rfl
    exact effectiveAddress_zero s d
  case stb =>
    intro b hwrite
    rw [exec_stb, hwrite, endStore_ok, setBus]
  case outw =>
    intro b hwrite
    rw [exec_outw, hwrite, endStore_ok, setBus]
  case regs =>
    rintro t (hstb | houtw)
    · exact endStore_sameRegs hstb
    · exact endStore_sameRegs houtw

end Sys2Proof.Machine

/-! SUPPORT. Proofs for spec/70_reset_and_hazards.md: the first fetch after construction (R181), as a halfword read in
the ROM window, which holds the image's bytes in pairs (R49, R54). -/

namespace Sys2Proof.Machine

/-! ### Halfwords of the ROM window -/

/-- The second byte of a halfword is at the next 27-bit address: the first one's address is even, so nothing carries
out of bit 0. -/
theorem a27_halfwordAddr_succ (addr : Word) :
    (a27 (halfwordAddr addr + 1#32)).toNat = (a27 (halfwordAddr addr)).toNat + 1 := by
  rw [a27_toNat, a27_toNat, BitVec.toNat_add, halfwordAddr_toNat, BitVec.toNat_ofNat]
  omega

/-- A halfword read whose cleared address reduces to `n` in the ROM window answers the image's bytes at `n` and
`n + 1`, each masked (R49), low byte first (R54). -/
theorem readHalfword_rom {image : List Byte} {bus : Bus} (hrom : (romRegion image).romWf = true)
    (hbus : bus.regions[0]? = some (romRegion image)) {addr : Word} {n : Nat}
    (hn : (a27 (halfwordAddr addr)).toNat = n) (hwindow : Config.romLo ≤ n) :
    ∃ (lo : (n &&& (image.length - 1)) < image.length) (hi : ((n + 1) &&& (image.length - 1)) < image.length),
      readHalfword bus addr = .ok (joinBytes image[(n + 1) &&& (image.length - 1)] image[n &&& (image.length - 1)]) := by
  subst hn
  rw [← a27_halfwordAddr_succ]
  obtain ⟨lo, hlow⟩ := readByte_rom hrom hbus hwindow
  obtain ⟨hi, hhigh⟩ := readByte_rom hrom hbus (addr := halfwordAddr addr + 1#32)
    (by rw [a27_halfwordAddr_succ]; exact Nat.le_succ_of_le hwindow)
  exact ⟨lo, hi, readHalfword_of_bytes hlow hhigh⟩

/-! ### A constructed core (R37, R181) -/

@[simp] theorem construct_pc (m : OpcodeMap) (bus : Bus) : (State.construct m bus).pc = 0xFFFFFFF0#32 := rfl

@[simp] theorem construct_bus (m : OpcodeMap) (bus : Bus) : (State.construct m bus).bus = bus := rfl

/-- The bus reduces the reset vector into the ROM window (R46, R181). -/
theorem a27_resetVector : (a27 0xFFFFFFF0#32).toNat = 0x07FFFFF0 := by decide

/-- The reset vector is even, so a halfword read leaves it as it is. -/
theorem halfwordAddr_resetVector : halfwordAddr 0xFFFFFFF0#32 = 0xFFFFFFF0#32 := by decide

/-- Settles O43: the reset vector reduces into the ROM window, where a halfword is two bytes of the image. -/
theorem firstFetchIsAtTheResetVector : Obligations.FirstFetchIsAtTheResetVector := by
  intro m image extra bus h
  obtain ⟨hregions, hrom⟩ := constructBus_ok h
  have hhead : bus.regions[0]? = some (romRegion image) := by rw [hregions]; rfl
  have hreduced : (a27 (halfwordAddr 0xFFFFFFF0#32)).toNat = 0x07FFFFF0 := by
    rw [halfwordAddr_resetVector, a27_resetVector]
  refine ⟨construct_pc m bus, a27_resetVector, ?_⟩
  rw [construct_bus, construct_pc]
  exact readHalfword_rom hrom hhead hreduced (by decide)

end Sys2Proof.Machine

/-! SUPPORT. Proofs for spec/30_encoding.md, from the instruction to its bytes and back: what the encoder writes (R94),
and that the decoder reads it as the instruction (R75, R77 to R83). -/

namespace Sys2Proof

/-! ### Decoding one whole instruction -/

/-- A unit with the number of a one-unit opcode is an instruction by itself (R75, R81). -/
theorem decodeBytesWith_one_unit {m : OpcodeMap} {u1 : Halfword} {op : Opcode} (hdecode : decodeWith m u1 = .ok op)
    (hone : hasSecondUnit (formatOf op) = false) (rest : List Byte) :
    decodeBytesWith m (unitBytes [u1] ++ rest) = .ok (assemble op u1 placeholderUnit, rest) := by
  simp [decodeBytesWith_unit, hdecode, hone]

/-- A unit with the number of a two-unit opcode takes the next unit with it (R75, R81). -/
theorem decodeBytesWith_two_units {m : OpcodeMap} {u1 : Halfword} {op : Opcode} (hdecode : decodeWith m u1 = .ok op)
    (htwo : hasSecondUnit (formatOf op) = true) (u2 : Halfword) (rest : List Byte) :
    decodeBytesWith m (unitBytes [u1, u2] ++ rest) = .ok (assemble op u1 u2, rest) := by
  simp [decodeBytesWith_unit, hdecode, htwo]

/-- What the encoder writes: a first unit that carries the opcode's number, and a second where the format has one; the
fields of these units are the operands again. -/
theorem encodeWith_cases (m : OpcodeMap) (i : Instr) : ∃ u1, m.number (opcodeOf i) = opcodeField u1 ∧
    ((hasSecondUnit (formatOf (opcodeOf i)) = false ∧ encodeWith m i = [u1] ∧
        assemble (opcodeOf i) u1 placeholderUnit = i) ∨
      (hasSecondUnit (formatOf (opcodeOf i)) = true ∧ ∃ u2, encodeWith m i = [u1, u2] ∧
        assemble (opcodeOf i) u1 u2 = i)) := by
  cases i with
  | jmp reg1 =>
    exact ⟨packUnit m.jmp 0#5 reg1, (opcodeField_packUnit ..).symm, .inl ⟨rfl, rfl, by simp [opcodeOf, assemble]⟩⟩
  | mov imm5 reg2 =>
    exact ⟨packUnit m.mov reg2 imm5, (opcodeField_packUnit ..).symm, .inl ⟨rfl, rfl, by simp [opcodeOf, assemble]⟩⟩
  | sub reg1 reg2 =>
    exact ⟨packUnit m.sub reg2 reg1, (opcodeField_packUnit ..).symm, .inl ⟨rfl, rfl, by simp [opcodeOf, assemble]⟩⟩
  | movhi imm16 reg1 reg2 =>
    exact ⟨packUnit m.movhi reg2 reg1, (opcodeField_packUnit ..).symm, .inr ⟨rfl, imm16, rfl, by simp [opcodeOf, assemble]⟩⟩
  | movea imm16 reg1 reg2 =>
    exact ⟨packUnit m.movea reg2 reg1, (opcodeField_packUnit ..).symm, .inr ⟨rfl, imm16, rfl, by simp [opcodeOf, assemble]⟩⟩
  | stb reg2 disp16 reg1 =>
    exact ⟨packUnit m.stb reg2 reg1, (opcodeField_packUnit ..).symm, .inr ⟨rfl, disp16, rfl, by simp [opcodeOf, assemble]⟩⟩
  | outw reg2 disp16 reg1 =>
    exact ⟨packUnit m.outw reg2 reg1, (opcodeField_packUnit ..).symm, .inr ⟨rfl, disp16, rfl, by simp [opcodeOf, assemble]⟩⟩

/-- Settles O33: the first unit decodes to the instruction's opcode, the format says how many units to take, and their
fields are the operands. -/
theorem decodeOfEncodeIsIdentity : Obligations.DecodeOfEncodeIsIdentity := by
  intro m hm i rest
  obtain ⟨u1, hnumber, ⟨hone, hencode, hfields⟩ | ⟨htwo, u2, hencode, hfields⟩⟩ := encodeWith_cases m i
  · rw [encodeBytesWith, hencode, decodeBytesWith_one_unit (decodeWith_of_number hm hnumber) hone, hfields]
  · rw [encodeBytesWith, hencode, decodeBytesWith_two_units (decodeWith_of_number hm hnumber) htwo, hfields]

end Sys2Proof

/-! SUPPORT. Proofs for what every step keeps (spec/00_scope.md R8, spec/10_state.md R20, R32, spec/20_memory.md R51):
the opcode map, the region layout, the read-only regions, the locations, the inert status fields, and the invariant. -/

namespace Sys2Proof.Machine

/-- Every way a step answers a next state: the latch was clear, and either phases 1 to 3 failed, or the instruction
they fetched ran and phase 5 closed the step. -/
theorem step_next {s t : State} (h : step s = .next t) :
    s.fault = none ∧ (fetchInstr s = .error t ∨
      ∃ i v, fetchInstr s = .ok (i, setPc s (s.pc + instrLength i)) ∧
        exec i (setPc s (s.pc + instrLength i)) = .next v ∧ retire i (.next v) = .next t) := by
  rcases step_cases s with ⟨e, -, hs⟩ | ⟨hf, u, hu, hs⟩ | ⟨hf, i, hi, hs⟩
  · rw [hs] at h; cases h
  · rw [hs] at h; cases h; exact ⟨hf, .inl hu⟩
  · obtain ⟨v, hv, -⟩ := exec_cases i (setPc s (s.pc + instrLength i))
    rw [hs, hv] at h
    exact ⟨hf, .inr ⟨i, v, hi, hv, h⟩⟩

/-- The cycle accounting leaves the opcode map. -/
theorem retire_opcodeMap {i : Instr} {s t : State} (h : retire i (.next s) = .next t) : t.opcodeMap = s.opcodeMap := by
  rw [retire_next] at h
  cases h
  split <;> rfl

/-- No step changes the opcode map (R8) or an inert field of the status word (R32). -/
theorem step_opcodeMap_inert {s t : State} (h : step s = .next t) :
    t.opcodeMap = s.opcodeMap ∧ t.psw.inert = s.psw.inert := by
  obtain ⟨-, hfetch | ⟨i, v, -, hv, ht⟩⟩ := step_next h
  · obtain ⟨a, e, -, rfl⟩ := fetchInstr_error hfetch
    exact ⟨rfl, rfl⟩
  · obtain ⟨w, hw, -, -, hinert, -, hmap⟩ := exec_cases i (setPc s (s.pc + instrLength i))
    cases hw.symm.trans hv
    exact ⟨(retire_opcodeMap ht).trans hmap, (congrArg StatusWord.inert (retire_psw ht)).trans hinert⟩

/-- Settles O46: a step leaves the bus or writes one read-write region, which keeps the table well-formed, and leaves
the opcode map. -/
theorem everyStepKeepsTheInvariant : Obligations.EveryStepKeepsTheInvariant := by
  rintro s t ⟨hbus, hmap⟩ h
  refine ⟨?_, (step_opcodeMap_inert h).1 ▸ hmap⟩
  rcases step_bus h with hsame | hwritten
  · rwa [hsame]
  · exact hwritten.wf hbus

/-- Settles O47: a write changes neither the layout, nor a read-only region, nor a location. -/
theorem layoutAndReadOnlyBytesNeverChange : Obligations.LayoutAndReadOnlyBytesNeverChange := by
  intro s t h
  refine ⟨(step_opcodeMap_inert h).1, ?layout, fun k r hr hc => step_readOnly h hc hr, ?location⟩
  case layout =>
    rcases step_bus h with hsame | hwritten
    · rw [hsame]
    · exact hwritten.layout
  case location =>
    intro a
    rcases step_bus h with hsame | hwritten
    · rw [hsame]
    · exact hwritten.location a

/-- No run changes an inert field of the status word (R32). -/
theorem drive_inert (n : Nat) (s : State) : (drive n s).psw.inert = s.psw.inert :=
  drive_keeps (P := fun t => t.psw.inert = s.psw.inert)
    (fun _ _ h hkept => (step_opcodeMap_inert h).2.trans hkept) n rfl

/-- Settles O28: no step writes an inert field, and construction sets NP alone. -/
theorem inertStatusFieldsNeverChange : Obligations.InertStatusFieldsNeverChange :=
  ⟨drive_inert, fun n m bus => drive_inert n (State.construct m bus)⟩

end Sys2Proof.Machine

/-! SUPPORT. Proofs for spec/30_encoding.md, from the unit back to the opcode: what `decode` answers (R83, R86), and the
bytes behind a decoded instruction (R89, R94). -/

namespace Sys2Proof

/-! ### What `decode` answers (R83) -/

/-- Settles O30: both answers of the decoder, each in both directions. -/
theorem decodeLooksOnlyAtOpcodeBits : Obligations.DecodeLooksOnlyAtOpcodeBits := by
  intro m hm u1
  refine ⟨fun op => ⟨fun h => (decodeWith_ok h).symm, fun h => decodeWith_of_number hm h.symm⟩,
    fun e => ⟨fun h => ?_, fun ⟨he, hno⟩ => ?_⟩⟩
  · obtain ⟨he, hno⟩ := decodeWith_error h
    exact ⟨he, fun op hop => hno op hop.symm⟩
  · rcases decodeWith_cases m u1 with ⟨op, hop, -⟩ | ⟨-, h⟩
    · exact absurd hop.symm (hno op)
    · rw [h, he]

/-- The opcode field as a number: the unit without its low ten bits (R76). -/
theorem opcodeField_toNat (u1 : Halfword) : (opcodeField u1).toNat = u1.toNat / 1024 := by
  have hlt := u1.isLt
  rw [opcodeField, BitVec.extractLsb'_toNat, Nat.shiftRight_eq_div_pow]
  omega

/-- Under the default map a unit with an opcode's number decodes to it. -/
theorem decode_of_number {u1 : Halfword} {op : Opcode} (h : u1.toNat / 1024 = (defaultOpcodeMap.number op).toNat) :
    decode u1 = .ok op :=
  decodeWith_of_number defaultOpcodeMap_wellFormed
    (BitVec.eq_of_toNat_eq (by rw [opcodeField_toNat, h]))

/-- Under the default map a unit without an opcode's number is refused (R86). -/
theorem decode_of_no_number {u1 : Halfword} (h : ∀ op, u1.toNat / 1024 ≠ (defaultOpcodeMap.number op).toNat) :
    decode u1 = .error ⟨u1⟩ := by
  rcases decodeWith_cases defaultOpcodeMap u1 with ⟨op, hop, -⟩ | ⟨-, herror⟩
  · exact absurd (by rw [hop, opcodeField_toNat]) (h op)
  · exact herror

/-- Settles O31, row by row of the default map (R85), and the other units by exclusion. -/
theorem sevenPatternsDecode : Obligations.SevenPatternsDecode := by
  intro u1
  split_ifs with hjmp hmov hsub hmovea hmovhi hstb houtw
  · exact decode_of_number (op := .jmp) hjmp
  · exact decode_of_number (op := .mov) hmov
  · exact decode_of_number (op := .sub) hsub
  · exact decode_of_number (op := .movea) hmovea
  · exact decode_of_number (op := .movhi) hmovhi
  · exact decode_of_number (op := .stb) hstb
  · exact decode_of_number (op := .outw) houtw
  · refine decode_of_no_number fun op => ?_
    cases op with
    | jmp => exact hjmp
    | mov => exact hmov
    | sub => exact hsub
    | movhi => exact hmovhi
    | movea => exact hmovea
    | stb => exact hstb
    | outw => exact houtw

/-- Settles O32: the decoder runs on the spec's fixed bytes. -/
theorem decoderReadsTheSpecsWords : Obligations.DecoderReadsTheSpecsWords :=
  ⟨rfl, rfl, rfl, rfl, rfl, rfl, rfl, rfl, rfl⟩

/-! ### The bytes behind a decoded instruction -/

/-- Everything that bytes which decode can be: a unit that decodes, the second unit where the opcode's format has one,
and the rest. -/
theorem decodeBytesWith_ok {m : OpcodeMap} {bytes rest : List Byte} {i : Instr}
    (h : decodeBytesWith m bytes = .ok (i, rest)) : ∃ u1 op, decodeWith m u1 = .ok op ∧
    ((hasSecondUnit (formatOf op) = false ∧ bytes = unitBytes [u1] ++ rest ∧ i = assemble op u1 placeholderUnit) ∨
      (hasSecondUnit (formatOf op) = true ∧ ∃ u2, bytes = unitBytes [u1, u2] ++ rest ∧ i = assemble op u1 u2)) := by
  match bytes with
  | [] | [_] => cases h
  | b0 :: b1 :: tail =>
    refine ⟨joinBytes b1 b0, ?_⟩
    unfold decodeBytesWith at h
    cases hdecode : decodeWith m (joinBytes b1 b0) with
    | error e => simp [hdecode] at h
    | ok op =>
      refine ⟨op, rfl, ?_⟩
      cases hformat : hasSecondUnit (formatOf op) with
      | false =>
        simp only [hdecode, hformat] at h
        cases h
        exact .inl ⟨rfl, by simp, rfl⟩
      | true =>
        match tail with
        | [] | [_] => simp [hdecode, hformat] at h
        | b2 :: b3 :: tail =>
          simp only [hdecode, hformat] at h
          cases h
          exact .inr ⟨rfl, joinBytes b3 b2, by simp, rfl⟩

/-- A unit is the pack of its number's opcode and its two low fields. -/
theorem packUnit_of_number {n : OpcodeNumber} {u1 : Halfword} (h : n = opcodeField u1) :
    packUnit n (reg2Field u1) (reg1Field u1) = u1 := by
  rw [h, packUnit_fields]

/-- Encoding the instruction that was put together from a unit gives the unit back, unless it is JMP, whose field in
bits 9..5 is lost (R89). -/
theorem encodeWith_assemble {m : OpcodeMap} {op : Opcode} {u1 : Halfword} (u2 : Halfword)
    (h : m.number op = opcodeField u1) (hop : op ≠ .jmp) :
    encodeWith m (assemble op u1 u2) = if hasSecondUnit (formatOf op) then [u1, u2] else [u1] := by
  have hunit : packUnit (m.number op) (reg2Field u1) (reg1Field u1) = u1 := packUnit_of_number h
  cases op with
  | jmp => exact absurd rfl hop
  | mov => exact congrArg ([·]) hunit
  | sub => exact congrArg ([·]) hunit
  | movhi => exact congrArg ([·, u2]) hunit
  | movea => exact congrArg ([·, u2]) hunit
  | stb => exact congrArg ([·, u2]) hunit
  | outw => exact congrArg ([·, u2]) hunit

/-- Settles O34: the bytes are the decoded units, and the encoder writes these units again; for JMP up to the field
that `assemble` drops. -/
theorem decodedBytesAreTheEncoding : Obligations.DecodedBytesAreTheEncoding := by
  intro m _ bytes rest i h
  obtain ⟨u1, op, hdecode, ⟨hone, rfl, rfl⟩ | ⟨htwo, u2, rfl, rfl⟩⟩ := decodeBytesWith_ok h
  · have hnumber := decodeWith_ok hdecode
    refine ⟨fun reg1 hi => ⟨reg2Field u1, ?_⟩, fun hi => ?_⟩
    · have hop : op = .jmp := (opcodeOf_assemble op u1 placeholderUnit).symm.trans (congrArg opcodeOf hi)
      subst hop
      cases hi
      have hunit : packUnit m.jmp (reg2Field u1) (reg1Field u1) = u1 := packUnit_of_number hnumber
      rw [hunit]
    · rw [opcodeOf_assemble] at hi
      rw [encodeBytesWith, encodeWith_assemble _ hnumber hi, hone, if_neg Bool.false_ne_true]
  · have hnumber := decodeWith_ok hdecode
    have hop : op ≠ .jmp := by rintro rfl; cases htwo
    refine ⟨fun reg1 hi => ?_, fun _ => ?_⟩
    · exact absurd ((opcodeOf_assemble op u1 u2).symm.trans (congrArg opcodeOf hi)) hop
    · rw [encodeBytesWith, encodeWith_assemble _ hnumber hop, htwo, if_pos rfl]

end Sys2Proof

/-! SUPPORT. Proofs for spec/40_sequencer.md: every step of a running core completes (R109), what a failing step leaves
(R109, R150, R151), halting (R101, R110), runs (R112, R113), the counter that nothing reads (R34, R188), and the step as
the meaning of the decoded bytes (R100). -/

namespace Sys2Proof.Machine

/-! ### Every step of a running core completes -/

/-- Settles O19: no meaning stops, so neither does the step around it. -/
theorem everyStepOfARunningCoreCompletes : Obligations.EveryStepOfARunningCoreCompletes := by
  refine ⟨fun i s => ?_, fun s hclear => ?_⟩
  · obtain ⟨t, ht, -⟩ := exec_cases i s
    exact ⟨t, ht⟩
  · rcases step_cases s with ⟨e, he, -⟩ | ⟨-, t, -, hs⟩ | ⟨-, i, -, hs⟩
    · rw [hclear] at he; cases he
    · exact ⟨t, hs⟩
    · obtain ⟨v, hv, -⟩ := exec_cases i (setPc s (s.pc + instrLength i))
      exact ⟨_, by rw [hs, hv, retire_next]⟩

/-! ### What a failing step leaves (R109) -/

/-- A step whose phases 1 to 3 fail leaves what they left. -/
theorem step_of_fetch_error {s t : State} (hclear : s.fault = none) (h : fetchInstr s = .error t) :
    step s = .next t := by
  rw [step_running hclear, h]

/-- A failed first fetch latches at A. -/
theorem fetchInstr_of_unmapped {s : State} {b : BusError} (h : readHalfword s.bus s.pc = .error b) :
    fetchInstr s = .error (latch s (.bus .unmappedRead s.pc s.pc)) := by
  have hb := readHalfword_error h
  subst hb
  simp [fetchInstr, h]

/-- A failed decode latches the whole unit at A. -/
theorem fetchInstr_of_no_opcode {s : State} {u1 : Halfword} (h : readHalfword s.bus s.pc = .ok u1)
    (hno : ∀ op, s.opcodeMap.number op ≠ opcodeField u1) : fetchInstr s = .error (latch s (.decode u1 s.pc)) := by
  rcases decodeWith_cases s.opcodeMap u1 with ⟨op, hop, -⟩ | ⟨-, hd⟩
  · exact absurd hop (hno op)
  · simp [fetchInstr, h, hd]

/-- A failed second fetch latches with the PC at A + 2. -/
theorem fetchInstr_of_second_unmapped {s : State} {u1 : Halfword} {op : Opcode} {b : BusError}
    (h : readHalfword s.bus s.pc = .ok u1) (hd : decodeWith s.opcodeMap u1 = .ok op)
    (htwo : hasSecondUnit (formatOf op) = true) (h2 : readHalfword s.bus (s.pc + 2#32) = .error b) :
    fetchInstr s = .error (latch (setPc s (s.pc + 2#32)) (.bus .unmappedRead (s.pc + 2#32) s.pc)) := by
  have hb := readHalfword_error h2
  subst hb
  simp [fetchInstr, h, hd, htwo, h2]

/-- A write that fails names the caller's address and one of the two kinds of a failed write (R152). -/
theorem writeThrough_error {bus : Bus} {addr target : Word} {f : Nat → Memory → Memory} {e : BusError}
    (h : writeThrough bus addr target f = .error e) :
    (e.kind = .unmappedWrite ∨ e.kind = .readOnlyWrite) ∧ e.addr = addr := by
  rcases writeThrough_cases bus addr target f with ⟨-, h'⟩ | ⟨p, -, -, h'⟩ | ⟨p, -, -, h'⟩ <;>
    rw [h] at h' <;> cases h'
  · exact ⟨.inl rfl, rfl⟩
  · exact ⟨.inr rfl, rfl⟩

/-- A store that sets the latch changes nothing else, and the error is its bus write's. -/
theorem endStore_writeThrough_failed {s t : State} {addr target : Word} {f : Nat → Memory → Memory}
    (hclear : s.fault = none) (h : endStore s (writeThrough s.bus addr target f) = .next t) (ht : t.fault ≠ none) :
    ∃ kind, (kind = .unmappedWrite ∨ kind = .readOnlyWrite) ∧ t = latch s (.bus kind addr (storeStart s)) := by
  rcases endStore_cases s (writeThrough s.bus addr target f) with ⟨b, -, hend⟩ | ⟨e, he, hend⟩
  · rw [h] at hend
    cases hend
    exact absurd hclear ht
  · rw [h] at hend
    cases hend
    obtain ⟨hkind, haddr⟩ := writeThrough_error he
    exact ⟨e.kind, hkind, by rw [haddr]⟩

/-- The same for both store instructions. -/
theorem exec_store_failed {s t : State} {reg1 reg2 : RegIdx} {d : BitVec 16} {i : Instr}
    (hi : i = .stb reg2 d reg1 ∨ i = .outw reg2 d reg1) (hclear : s.fault = none) (h : exec i s = .next t)
    (ht : t.fault ≠ none) : ∃ kind, (kind = .unmappedWrite ∨ kind = .readOnlyWrite) ∧
      t = latch s (.bus kind (effectiveAddress s reg1 d) (storeStart s)) := by
  rcases hi with rfl | rfl
  · exact endStore_writeThrough_failed hclear h ht
  · exact endStore_writeThrough_failed hclear h ht

/-- Where phase 4 set the latch, phase 5 does nothing (R107). -/
theorem retire_of_fault {i : Instr} {s t : State} (h : retire i (.next s) = .next t) (ht : t.fault ≠ none) : t = s := by
  have hs : s.fault ≠ none := (retire_fault_cycles h).1 ▸ ht
  rw [retire_next, if_neg hs] at h
  cases h
  rfl

/-- A step that fetched an instruction and failed left what its meaning left. -/
theorem exec_of_step_failed {s u t : State} {i : Instr} (hfetch : fetchInstr s = .ok (i, u)) (h : step s = .next t)
    (ht : t.fault ≠ none) : exec i u = .next t := by
  obtain ⟨-, herror | ⟨j, v, hj, hv, hretire⟩⟩ := step_next h
  · rw [hfetch] at herror; cases herror
  · rw [hfetch] at hj
    cases hj
    rw [retire_of_fault hretire ht, hv]

/-- A store starts where the step did, for the PC stands 4 behind it (R28). -/
theorem storeStart_setPc (s : State) : storeStart (setPc s (s.pc + 4#32)) = s.pc :=
  BitVec.add_sub_cancel s.pc 4#32

/-- A step that fetched a store and failed latches its bus write's error with the PC at A + 4. -/
theorem step_store_failed {s u t : State} {reg1 reg2 : RegIdx} {d : BitVec 16} {i : Instr}
    (hi : i = .stb reg2 d reg1 ∨ i = .outw reg2 d reg1) (hfetch : fetchInstr s = .ok (i, u)) (h : step s = .next t)
    (ht : t.fault ≠ none) : ∃ kind, (kind = .unmappedWrite ∨ kind = .readOnlyWrite) ∧
      t = latch (setPc s (s.pc + 4#32)) (.bus kind (effectiveAddress s reg1 d) s.pc) := by
  have hlength : instrLength i = 4#32 := by rcases hi with rfl | rfl <;> rfl
  have hu := fetchInstr_ok hfetch
  rw [hlength] at hu
  subst hu
  have hclear : (setPc s (s.pc + 4#32)).fault = none := (step_next h).1
  obtain ⟨kind, hkind, hlatch⟩ := exec_store_failed hi hclear (exec_of_step_failed hfetch h ht) ht
  rw [storeStart_setPc] at hlatch
  exact ⟨kind, hkind, hlatch⟩

/-- Settles O20: three rows from what phases 1 to 3 answer, the fourth from how a store ends. -/
theorem failedStepLeavesTableR109 : Obligations.FailedStepLeavesTableR109 := by
  intro s hclear
  refine ⟨?firstFetch, ?decode, ?secondFetch, ?store⟩
  case firstFetch =>
    intro b hread
    exact step_of_fetch_error hclear (fetchInstr_of_unmapped hread)
  case decode =>
    intro u1 hread hno
    exact step_of_fetch_error hclear (fetchInstr_of_no_opcode hread hno)
  case secondFetch =>
    intro u1 op b hm hread hop htwo hread2
    exact step_of_fetch_error hclear
      (fetchInstr_of_second_unmapped hread (decodeWith_of_number hm hop) htwo hread2)
  case store =>
    rintro reg1 reg2 d u (hfetch | hfetch) t h ht
    · exact step_store_failed (.inl rfl) hfetch h ht
    · exact step_store_failed (.inr rfl) hfetch h ht

/-! ### Decode errors (R151) -/

/-- No meaning raises a DecodeError. -/
theorem exec_decode_fault {i : Instr} {s t : State} {u : Halfword} {a : Word} (h : exec i s = .next t)
    (ht : t.fault = some (.decode u a)) : s.fault = some (.decode u a) := by
  obtain ⟨v, hv, -, hfault, -⟩ := exec_cases i s
  cases hv.symm.trans h
  rcases hfault with hsame | ⟨k, b, p, hbus⟩
  · rw [← hsame, ht]
  · rw [ht] at hbus; cases hbus

/-- Phases 1 to 3 raise a DecodeError only for a fetched unit without an opcode. -/
theorem fetchInstr_decode_fault {s t : State} {u : Halfword} {a : Word} (h : fetchInstr s = .error t)
    (ht : t.fault = some (.decode u a)) :
    readHalfword s.bus s.pc = .ok u ∧ a = s.pc ∧ ∀ op, s.opcodeMap.number op ≠ opcodeField u := by
  rcases fetchInstr_cases s with ⟨-, h'⟩ | ⟨u1, hread, hd, h'⟩ | ⟨_, _, -, -, -, -, h'⟩ | ⟨_, _, _, -, -, -, -, h'⟩ |
    ⟨_, _, -, -, -, h'⟩ <;> rw [h] at h' <;> cases h'
  · cases ht
  · cases ht
    exact ⟨hread, rfl, (decodeWith_error hd).2⟩
  · cases ht

/-- Settles O21: of a step's phases the decoder alone raises a DecodeError. -/
theorem decodeErrorOnlyFromUnknownOpcode : Obligations.DecodeErrorOnlyFromUnknownOpcode := by
  refine ⟨fun s t u a h ht => ?_, fun s u hclear hread hno => ?_, fun i s t u a h ht => exec_decode_fault h ht⟩
  · obtain ⟨hclear, herror | ⟨i, v, -, hv, hretire⟩⟩ := step_next h
    · exact fetchInstr_decode_fault herror ht
    · have hbefore := exec_decode_fault hv ((retire_fault_cycles hretire).1 ▸ ht)
      cases hclear.symm.trans hbefore
  · exact ⟨_, step_of_fetch_error hclear (fetchInstr_of_no_opcode hread hno), rfl⟩

/-! ### Halting and runs -/

/-- A call of `step` on a halted core changes nothing (R101). -/
theorem afterStep_halted {s : State} {e : CoreError} (h : s.fault = some e) : afterStep s = s := by
  simp only [afterStep, step_halted h]

/-- Nor does any number of calls (R110). -/
theorem drive_halted {s : State} {e : CoreError} (h : s.fault = some e) (n : Nat) : drive n s = s := by
  induction n with
  | zero => rfl
  | succ n ih => rw [drive, afterStep_halted h, ih]

/-- What a call of `step` returns is what the latch holds after it (R35). -/
theorem stepResult_eq_error {s : State} {e : CoreError} : stepResult s = .error e ↔ (afterStep s).fault = some e := by
  unfold stepResult
  cases (afterStep s).fault <;> simp

/-- Settles O22, by induction on the number of calls. -/
theorem haltedCoreStaysHalted : Obligations.HaltedCoreStaysHalted := by
  intro s e h
  refine ⟨step_halted h, fun n => ⟨drive_halted h n, ?_⟩⟩
  rw [drive_halted h, stepResult_eq_error, afterStep_halted h, h]

/-- A run in two parts. -/
theorem drive_add (m n : Nat) (s : State) : drive (m + n) s = drive n (drive m s) := by
  induction m generalizing s with
  | zero => rw [Nat.zero_add, drive]
  | succ m ih => rw [Nat.succ_add, drive, drive, ih]

/-- The last call of a run. -/
theorem drive_succ_last (n : Nat) (s : State) : drive (n + 1) s = afterStep (drive n s) :=
  drive_add n 1 s

/-- A latch set along a run is set at its end. -/
theorem drive_fault_of_le {k n : Nat} {s : State} {e : CoreError} (hkn : k ≤ n) (h : (drive k s).fault = some e) :
    (drive n s).fault = some e := by
  obtain ⟨j, rfl⟩ := Nat.exists_eq_add_of_le hkn
  rw [drive_add, drive_halted h, h]

/-- Settles O23: the latch a failed step sets stays set, and a set latch was set by the last call. -/
theorem runFaultedIffLatchSetAtEnd : Obligations.RunFaultedIffLatchSetAtEnd := by
  intro n s hclear
  constructor
  · rintro ⟨k, hk, e, herror⟩
    rw [stepResult_eq_error, ← drive_succ_last] at herror
    rw [drive_fault_of_le hk herror]
    exact Option.some_ne_none e
  · intro hset
    obtain ⟨e, he⟩ := Option.ne_none_iff_exists'.1 hset
    cases n with
    | zero => exact absurd hclear hset
    | succ n => exact ⟨n, Nat.lt_succ_self n, e, by rwa [stepResult_eq_error, ← drive_succ_last]⟩

/-! ### Nothing reads the cycle counter (R34, R188) -/

/-- The state with another value in the cycle counter. -/
def setCycles (s : State) (n : Nat) : State := { s with cycles := n }

/-- The cycle accounting is such a change (R107). -/
theorem addCycles_eq_setCycles (s : State) (n : Nat) : addCycles s n = setCycles s (s.cycles + n) := rfl

theorem writeReg_setCycles (s : State) (n : Nat) (i : RegIdx) (v : Word) :
    writeReg (setCycles s n) i v = setCycles (writeReg s i v) n := by
  unfold writeReg
  split <;> rfl

/-- However a store ends, it carries the counter along unread. -/
theorem endStore_setCycles {s t : State} {r : Except BusError Bus} (n : Nat) (h : endStore s r = .next t) :
    endStore (setCycles s n) r = .next (setCycles t n) := by
  cases r with
  | ok b => cases h; rfl
  | error e => cases h; rfl

/-- Phases 1 to 3 read the PC, the bus and the opcode map alone: the counter goes through them. -/
theorem fetchInstr_setCycles (s : State) (n : Nat) :
    fetchInstr (setCycles s n) =
      ((fetchInstr s).mapError (setCycles · n)).map fun r => (r.1, setCycles r.2 n) := by
  have hread : ∀ a, readHalfword (setCycles s n).bus a = readHalfword s.bus a := fun _ => rfl
  have hpc : (setCycles s n).pc = s.pc := rfl
  have hmap : (setCycles s n).opcodeMap = s.opcodeMap := rfl
  rcases fetchInstr_cases s with ⟨h1, h⟩ | ⟨u1, h1, hd, h⟩ | ⟨u1, op, h1, hd, hf, h2, h⟩ |
    ⟨u1, op, u2, h1, hd, hf, h2, h⟩ | ⟨u1, op, h1, hd, hf, h⟩
  all_goals
    rw [h]
    simp only [fetchInstr, *]
    rfl

/-- Phase 4 carries the counter along unread. -/
theorem exec_setCycles {i : Instr} {s t : State} (n : Nat) (h : exec i s = .next t) :
    exec i (setCycles s n) = .next (setCycles t n) := by
  cases i with
  | jmp reg1 => cases h; rfl
  | mov imm5 reg2 => cases h; exact congrArg Host.Outcome.next (writeReg_setCycles ..)
  | sub reg1 reg2 =>
    cases h
    exact congrArg (fun t => Host.Outcome.next (setPsw t _)) (writeReg_setCycles ..)
  | movhi imm16 reg1 reg2 => cases h; exact congrArg Host.Outcome.next (writeReg_setCycles ..)
  | movea imm16 reg1 reg2 => cases h; exact congrArg Host.Outcome.next (writeReg_setCycles ..)
  | stb reg2 disp16 reg1 => exact endStore_setCycles n h
  | outw reg2 disp16 reg1 => exact endStore_setCycles n h

/-- Phase 5 reads the counter into the counter alone. -/
theorem retire_setCycles {i : Instr} {s t : State} (n : Nat) (h : retire i (.next s) = .next t) :
    ∃ m, retire i (.next (setCycles s n)) = .next (setCycles t m) := by
  rw [retire_next] at h
  cases h
  have hfault : (setCycles s n).fault = s.fault := rfl
  rw [retire_next, hfault]
  by_cases hf : s.fault = none
  · exact ⟨n + cycleCost (opcodeOf i), by rw [if_pos hf, if_pos hf]; rfl⟩
  · exact ⟨n, by rw [if_neg hf, if_neg hf]⟩

/-- A step from a state with another counter differs in the counter alone. -/
theorem step_setCycles {s t : State} (n : Nat) (h : step s = .next t) :
    ∃ m, step (setCycles s n) = .next (setCycles t m) := by
  obtain ⟨hclear, hu | ⟨i, v, hu, hv, ht⟩⟩ := step_next h
  · exact ⟨n, step_of_fetch_error hclear (by rw [fetchInstr_setCycles, hu]; rfl)⟩
  · obtain ⟨m, hm⟩ := retire_setCycles n ht
    refine ⟨m, ?_⟩
    rw [step_running (s := setCycles s n) hclear, fetchInstr_setCycles, hu, ← hm, ← exec_setCycles n hv]
    rfl

/-- Settles O25: phase by phase; and a fault is the latch's. -/
theorem nothingReadsTheCycleCounter : Obligations.NothingReadsTheCycleCounter := by
  refine fun s n => ⟨fun t h => step_setCycles n h, fun f h => ?_⟩
  obtain ⟨e, he, rfl⟩ := step_fault h
  exact step_halted (s := setCycles s n) he

/-! ### The step and the bytes at the PC (R100) -/

/-- The halfword after the one that holds an address. -/
theorem halfwordAddr_add_two (addr : Word) : halfwordAddr (addr + 2#32) = halfwordAddr addr + 2#32 := by
  apply BitVec.eq_of_toNat_eq
  rw [halfwordAddr_toNat, BitVec.toNat_add, BitVec.toNat_add, halfwordAddr_toNat, BitVec.toNat_ofNat]
  omega

/-- The bus reads a list of bytes from an address on. -/
def ReadsBytes (bus : Bus) (addr : Word) (bytes : List Byte) : Prop :=
  ∀ (k : Nat) (hk : k < bytes.length), readByte bus (addr + BitVec.ofNat 32 k) = .ok bytes[k]

/-- Where the bus reads a unit's bytes, a halfword read answers the unit (R54). -/
theorem readHalfword_of_readsBytes {bus : Bus} {addr : Word} {u : Halfword} {tail : List Byte}
    (h : ReadsBytes bus (halfwordAddr addr) (lowByte u :: highByte u :: tail)) : readHalfword bus addr = .ok u := by
  have hlow := h 0 (by simp)
  have hhigh := h 1 (by simp)
  rw [BitVec.add_zero] at hlow
  rw [readHalfword_of_bytes hlow hhigh]
  exact congrArg Except.ok (joinBytes_bytes u)

/-- Behind a unit's bytes stand those of the next halfword. -/
theorem ReadsBytes.next {bus : Bus} {addr : Word} {b0 b1 : Byte} {tail : List Byte}
    (h : ReadsBytes bus (halfwordAddr addr) (b0 :: b1 :: tail)) :
    ReadsBytes bus (halfwordAddr (addr + 2#32)) tail := by
  intro k hk
  have hread := h (k + 2) (by simpa using hk)
  have haddr : halfwordAddr (addr + 2#32) + BitVec.ofNat 32 k = halfwordAddr addr + BitVec.ofNat 32 (k + 2) := by
    rw [halfwordAddr_add_two, BitVec.add_assoc, ← BitVec.ofNat_add, Nat.add_comm]
  rw [haddr, hread]
  rfl

/-- Where the bytes at the PC decode, phases 1 to 3 answer that instruction, the PC behind it. -/
theorem fetchInstr_of_readsBytes {s : State} {bytes rest : List Byte} {i : Instr}
    (hread : ReadsBytes s.bus (halfwordAddr s.pc) bytes) (hdecode : decodeBytesWith s.opcodeMap bytes = .ok (i, rest)) :
    fetchInstr s = .ok (i, setPc s (s.pc + instrLength i)) := by
  obtain ⟨u1, op, hop, ⟨hone, rfl, rfl⟩ | ⟨htwo, u2, rfl, rfl⟩⟩ := decodeBytesWith_ok hdecode
  · have h1 := readHalfword_of_readsBytes hread
    simp [fetchInstr, instrLength, h1, hop, hone]
  · have h1 := readHalfword_of_readsBytes hread
    have h2 := readHalfword_of_readsBytes hread.next
    simp [fetchInstr, instrLength, h1, h2, hop, htwo]

/-- Settles O18: phases 1 to 3 answer the decoded instruction, phase 4 completes, and phase 5 adds the cost. -/
theorem stepRunsDecodedInstruction : Obligations.StepRunsDecodedInstruction := by
  intro s i bytes rest hclear hread hdecode
  obtain ⟨t, ht, -⟩ := exec_cases i (setPc s (s.pc + instrLength i))
  have hexec : exec i { s with pc := s.pc + instrLength i } = .next t := ht
  rw [step_running hclear, fetchInstr_of_readsBytes hread hdecode, hexec]
  exact congrArg (retire i) ht

end Sys2Proof.Machine

/-! SUPPORT. Proofs for spec/20_memory.md: the region table's construction (R51), resolution in table order (R48), the
byte and halfword reads (R53, R54), the byte and word writes (R55, R56), and the ROM window's mirroring (R63). -/

namespace Sys2Proof.Machine

/-! ### Reading from the first matching region (R48, R53) -/

/-- A region's window does not hold an address, written with the address's number. -/
theorem Region.covers_a27_eq_false {r : Region} {addr : Word} :
    r.covers (a27 addr) = false ↔ ¬(r.lo ≤ addr.toNat % 2 ^ 27 ∧ addr.toNat % 2 ^ 27 ≤ r.hi) := by
  rw [← Bool.not_eq_true, Region.covers_iff, a27_toNat]

/-- Resolution passes over the regions whose windows do not hold the address, to the first that does. -/
theorem resolveFrom_append {k : Nat} {pre post : List Region} {r : Region} {a : PAddr}
    (hpre : ∀ q ∈ pre, q.covers a = false) (hr : r.covers a = true) :
    resolveFrom k (pre ++ r :: post) a = some ⟨k + pre.length, r, r.offset a⟩ := by
  induction pre generalizing k with
  | nil => simp [resolveFrom, hr]
  | cons q pre ih =>
    rw [List.cons_append, resolveFrom, hpre q List.mem_cons_self, if_neg Bool.false_ne_true,
      ih fun q' hq' => hpre q' (List.mem_cons_of_mem q hq')]
    simp only [List.length_cons, Option.some.injEq, Place.mk.injEq, and_self, and_true]
    omega

/-- Settles O36, from the two answers of resolution. -/
theorem readByteFromFirstMatchingRegion : Obligations.ReadByteFromFirstMatchingRegion := by
  refine ⟨fun pre post r addr hpre hlo hhi => ?_, fun bus addr hno => ?_⟩
  · have hcovers : r.covers (a27 addr) = true := by
      rw [Region.covers_iff, a27_toNat]
      exact ⟨hlo, hhi⟩
    have hplace : resolve ⟨pre ++ r :: post⟩ (a27 addr) = some ⟨0 + pre.length, r, r.offset (a27 addr)⟩ :=
      resolveFrom_append (fun q hq => Region.covers_a27_eq_false.2 (hpre q hq)) hcovers
    rw [readByte_resolved hplace, Region.offset, a27_toNat]
  · exact readByte_unmapped (resolve_eq_none.2 fun q hq => Region.covers_a27_eq_false.2 (hno q hq))

/-! ### Halfword reads (R54) -/

theorem toOption_mapError {α ε ε' : Type} (f : ε → ε') (x : Except ε α) : (x.mapError f).toOption = x.toOption := by
  cases x <;> rfl

/-- The value of a halfword read depends on the reduced address of the halfword alone. -/
theorem readHalfword_toOption_congr (bus : Bus) {a b : Word} (h : a27 (halfwordAddr a) = a27 (halfwordAddr b)) :
    (readHalfword bus a).toOption = (readHalfword bus b).toOption := by
  have hnext : a27 (halfwordAddr a + 1#32) = a27 (halfwordAddr b + 1#32) := by rw [a27_add, h, ← a27_add]
  rw [← toOption_mapError (·.kind) (readHalfword bus a), ← toOption_mapError (·.kind) (readHalfword bus b),
    readHalfword_kind, readHalfword_kind, readByte_kind_congr bus h, readByte_kind_congr bus hnext]

/-- Flipping bit 0 stays in the halfword. -/
theorem halfwordAddr_xor_one (addr : Word) : halfwordAddr (addr ^^^ 1#32) = halfwordAddr addr := by
  apply BitVec.eq_of_toNat_eq
  rw [halfwordAddr_toNat, halfwordAddr_toNat, BitVec.toNat_xor, Nat.xor_div_two]
  exact congrArg (· * 2) (Nat.xor_zero _)

/-- The halfword's second address has bit 0 set. -/
theorem halfwordAddr_add_one (addr : Word) : halfwordAddr addr + 1#32 = addr ||| 1#32 := by
  apply BitVec.eq_of_toNat_eq
  have hhalf : (addr.toNat ||| 1) / 2 = addr.toNat / 2 := by rw [Nat.or_div_two]; exact Nat.or_zero _
  have hodd : (addr.toNat ||| 1) % 2 = 1 := by simp [Nat.or_mod_two_eq_one]
  have hlt := addr.isLt
  rw [BitVec.toNat_add, halfwordAddr_toNat, BitVec.toNat_or, BitVec.toNat_ofNat, show 1 % 2 ^ 32 = 1 from rfl]
  omega

/-- A halfword at an unmapped address is not read. -/
theorem readHalfword_unmapped {bus : Bus} {addr : Word} (h : resolve bus (a27 (halfwordAddr addr)) = none) :
    readHalfword bus addr = .error ⟨.unmappedRead, addr⟩ := by
  simp [readHalfword, readByte_unmapped h]

/-- Settles O37: the two bytes of a halfword are in one region, since windows begin and end between halfwords. -/
theorem halfwordReadIsTwoAlignedBytes : Obligations.HalfwordReadIsTwoAlignedBytes := by
  intro bus addr hwf
  refine ⟨readHalfword_toOption_congr bus (by rw [halfwordAddr_xor_one]), fun h => readHalfword_unmapped h,
    fun p hp => ?_⟩
  have hq := halfword_resolve hwf hp
  have hlow := readByte_resolved hp
  have hhigh := readByte_resolved hq
  have hread := readHalfword_of_bytes hlow hhigh
  rw [halfwordAddr_add_one] at hq hhigh hread
  exact ⟨_, _, _, hq, rfl, hlow, hhigh, hread⟩

/-! ### Writes (R55, R56) -/

theorem writeThrough_unmapped {bus : Bus} {addr target : Word} (f : Nat → Memory → Memory)
    (h : resolve bus (a27 target) = none) : writeThrough bus addr target f = .error ⟨.unmappedWrite, addr⟩ := by
  simp [writeThrough, h]

theorem writeThrough_readOnly {bus : Bus} {addr target : Word} {p : Place} (f : Nat → Memory → Memory)
    (h : resolve bus (a27 target) = some p) (hc : p.region.cap = .readOnly) :
    writeThrough bus addr target f = .error ⟨.readOnlyWrite, addr⟩ := by
  simp [writeThrough, h, hc]

theorem writeThrough_readWrite {bus : Bus} {addr target : Word} {p : Place} (f : Nat → Memory → Memory)
    (h : resolve bus (a27 target) = some p) (hc : p.region.cap = .readWrite) :
    writeThrough bus addr target f = .ok (updateStore bus p.index (f p.offset)) := by
  simp [writeThrough, h, hc]

theorem location_resolved {bus : Bus} {addr : Word} {p : Place} (h : resolve bus (a27 addr) = some p) :
    location bus addr = some (p.index, p.offset) := by
  simp [location, h]

/-- What an address reads as after the bytes of the region it lies in were changed. -/
theorem readByte_updateStore_resolved {bus : Bus} {addr : Word} {p : Place} (h : resolve bus (a27 addr) = some p)
    (f : Memory → Memory) : readByte (updateStore bus p.index f) addr = .ok ((f p.region.store).read p.offset) := by
  simp [readByte_updateStore, h]

/-- A byte write to a read-write region of a well-formed table: the location holds the byte, every other location
what it held (R55). -/
theorem writeByte_readWrite {bus : Bus} {addr : Word} {p : Place} (hwf : bus.wf = true)
    (hp : resolve bus (a27 addr) = some p) (hc : p.region.cap = .readWrite) (v : Byte) :
    ∃ b, writeByte bus addr v = .ok b ∧ (∀ a, location bus a = location bus addr → readByte b a = .ok v) ∧
      (∀ a, location bus a ≠ location bus addr → readByte b a = readByte bus a) ∧ b.layout = bus.layout := by
  obtain ⟨hregion, -⟩ := resolve_eq_some hp
  obtain ⟨-, -, -, -, hstore⟩ := Bus.wf_region hwf hregion
  refine ⟨_, writeThrough_readWrite _ hp hc, fun a ha => ?_, fun a ha => ?_, layout_updateStore ..⟩
  · obtain ⟨q, hq, hindex, hoffset, hsame⟩ := resolve_of_location_eq hp ha
    rw [← hindex, readByte_updateStore_resolved hq, hsame, hoffset, Memory.read_write_wf hstore]
  · refine readByte_updateStore_of_eq hp _ a fun k hk => Memory.read_write_other _ _ ?_
    rintro rfl
    exact ha (hk.trans (location_resolved hp).symm)

/-- Settles O38: the three answers of the write rule. -/
theorem writeByteChangesOneByteOrFails : Obligations.WriteByteChangesOneByteOrFails := by
  intro bus addr v hwf
  refine ⟨fun h => writeThrough_unmapped _ h, fun p hp hc => writeThrough_readOnly _ hp hc, fun p hp hc => ?_⟩
  obtain ⟨b, hwrite, hsame, hother, hlayout⟩ := writeByte_readWrite hwf hp hc v
  exact ⟨b, hwrite, hsame addr rfl, hother, hlayout⟩

/-- The bytes of a word just written, byte by byte (R56). -/
theorem read_storeWord_add {size off : Nat} {m : Memory} (v : Word) (ho : off + 3 < size) (h : m.wf size = true)
    {k : Nat} (hk : k < 4) : (storeWord off v m).read (off + k) = v.extractLsb' (8 * k) 8 := by
  obtain ⟨h0, h1, h2, h3⟩ := read_storeWord v ho h
  match k, hk with
  | 0, _ => exact h0
  | 1, _ => exact h1
  | 2, _ => exact h2
  | 3, _ => exact h3

/-- Where the four bytes of an aligned word in a read-write region lie: at successive offsets of that region (R56). -/
theorem resolve_wordAddr_add {bus : Bus} {addr : Word} {p : Place} (hwf : bus.wf = true)
    (hp : resolve bus (a27 (wordAddr addr)) = some p) (hc : p.region.cap = .readWrite) {k : Nat} (hk : k < 4) :
    resolve bus (a27 (wordAddr addr + BitVec.ofNat 32 k)) = some ⟨p.index, p.region, p.offset + k⟩ := by
  rw [word_resolve hwf hp hk, word_offset_add hwf hp hc hk]

/-- A word write to a read-write region of a well-formed table: the four bytes hold the word, low byte lowest, every
other location what it held (R56). -/
theorem writeWord_readWrite {bus : Bus} {addr : Word} {p : Place} (hwf : bus.wf = true)
    (hp : resolve bus (a27 (wordAddr addr)) = some p) (hc : p.region.cap = .readWrite) (v : Word) :
    ∃ b, writeWord bus addr v = .ok b ∧
      (∀ k < 4, location bus (wordAddr addr + BitVec.ofNat 32 k) = some (p.index, p.offset + k) ∧
        readByte b (wordAddr addr + BitVec.ofNat 32 k) = .ok (v.extractLsb' (8 * k) 8)) ∧
      (∀ a, (∀ k < 4, location bus a ≠ some (p.index, p.offset + k)) → readByte b a = readByte bus a) ∧
      b.layout = bus.layout := by
  obtain ⟨hregion, hcovers, hoff, -⟩ := resolve_eq_some hp
  obtain ⟨-, -, -, -, hstore⟩ := Bus.wf_region hwf hregion
  have hfits : p.offset + 3 < p.region.size := hoff ▸ (word_offset (Bus.wf_readWrite hwf hregion hc) hcovers).2
  refine ⟨_, writeThrough_readWrite _ hp hc, fun k hk => ?_, fun a ha => ?_, layout_updateStore ..⟩
  · have hk' := resolve_wordAddr_add hwf hp hc hk
    refine ⟨location_resolved hk', ?_⟩
    rw [readByte_updateStore_resolved hk', read_storeWord_add v hfits hstore hk]
  · refine readByte_updateStore_of_eq hp _ a fun j hj => read_storeWord_other _ v ?_
    by_contra hinside
    obtain ⟨k, rfl⟩ := Nat.exists_eq_add_of_le (show p.offset ≤ j by omega)
    exact ha k (by omega) hj

/-- Settles O39: the three answers of the write rule at the word's address. -/
theorem writeWordIsAllOrNothing : Obligations.WriteWordIsAllOrNothing := by
  intro bus addr v hwf
  exact ⟨fun h => writeThrough_unmapped _ h, fun p hp hc => writeThrough_readOnly _ hp hc,
    fun p hp hc => writeWord_readWrite hwf hp hc v⟩

/-! ### The ROM window's mirroring (R63) -/

/-- Addresses that differ by a multiple of a power of two up to 2^27 agree modulo it: neither the 32-bit sum nor the
reduction to 27 bits is seen. -/
theorem a27_add_mul_mod {n : Nat} (hn : n ∣ 2 ^ 27) (a k : Word) :
    (a27 (a + k * BitVec.ofNat 32 n)).toNat % n = (a27 a).toNat % n := by
  have hn32 : n ∣ 2 ^ 32 := hn.trans (Nat.pow_dvd_pow 2 (by decide))
  rw [a27_toNat, a27_toNat, BitVec.toNat_add, BitVec.toNat_mul, BitVec.toNat_ofNat, Nat.mod_mod_of_dvd _ hn,
    Nat.mod_mod_of_dvd _ hn, Nat.mod_mod_of_dvd _ hn32, Nat.add_mod, Nat.mod_mod_of_dvd _ hn32, Nat.mul_mod,
    Nat.mod_mod_of_dvd _ hn32, Nat.mod_self, Nat.mul_zero, Nat.zero_mod, Nat.add_zero, Nat.mod_mod]

/-- The image's length divides 2^27. -/
theorem Region.romWf_size_dvd {r : Region} (h : r.romWf = true) : r.size ∣ 2 ^ 27 := by
  obtain ⟨-, -, -, -, hmax, hpow, -⟩ := Region.romWf_iff.1 h
  obtain ⟨k, hk⟩ := isPowerOfTwo_iff.1 hpow
  have hk24 : k ≤ 24 := (Nat.pow_le_pow_iff_right Nat.one_lt_two).1 (hk ▸ hmax : 2 ^ k ≤ 2 ^ 24)
  rw [hk]
  exact Nat.pow_dvd_pow 2 (by omega)

/-- In the ROM window a byte read answers the store's byte at the address modulo the image's length. -/
theorem readByte_romWf {rom : Region} {extra : List Region} (h : rom.romWf = true) {addr : Word}
    (ha : 0x07000000 ≤ (a27 addr).toNat) :
    readByte ⟨rom :: extra⟩ addr = .ok (rom.store.read ((a27 addr).toNat % rom.size)) := by
  obtain ⟨hlo, -, -, -, -, hpow, -⟩ := Region.romWf_iff.1 h
  obtain ⟨k, hk⟩ := isPowerOfTwo_iff.1 hpow
  have hlow : rom.lo ≤ (a27 addr).toNat := hlo ▸ ha
  rw [readByte_resolved (resolve_head (Region.romWf_covers h hlow)), Region.romWf_offset h hlow, hk,
    Nat.and_two_pow_sub_one_eq_mod]

/-- Settles O40: both addresses have one remainder modulo the image's length. -/
theorem romWindowMirrorsTheImage : Obligations.RomWindowMirrorsTheImage := by
  rintro ⟨regions⟩ rom a k hwf hhead ha hb
  obtain ⟨rom', extra, rfl, hrom, -⟩ := Bus.wf_head hwf
  cases hhead
  refine ⟨_, readByte_romWf hrom ha, ?_⟩
  rw [readByte_romWf hrom hb, a27_add_mul_mod (Region.romWf_size_dvd hrom)]

/-! ### Construction of a bus (R51) -/

/-- R51's check of an image, as the rule says it. -/
theorem imageWf_iff (image : List Byte) : imageWf image = true ↔ ∃ k ≤ 24, image.length = 2 ^ k := by
  simp only [imageWf, Bool.and_eq_true, decide_eq_true_eq, isPowerOfTwo_iff]
  constructor
  · rintro ⟨⟨-, hmax⟩, k, hk⟩
    exact ⟨k, (Nat.pow_le_pow_iff_right Nat.one_lt_two).1 (hk ▸ hmax : 2 ^ k ≤ 2 ^ 24), hk⟩
  · rintro ⟨k, hk, hlen⟩
    rw [hlen]
    exact ⟨⟨Nat.one_le_two_pow, (Nat.pow_le_pow_right (by decide) hk : 2 ^ k ≤ 2 ^ 24)⟩, k, rfl⟩

/-- A power of two of at least 4. -/
theorem isPowerOfTwo_four_le_iff {n : Nat} : isPowerOfTwo n = true ∧ 4 ≤ n ↔ ∃ k, 2 ≤ k ∧ n = 2 ^ k := by
  rw [isPowerOfTwo_iff]
  constructor
  · rintro ⟨⟨k, rfl⟩, h4⟩
    exact ⟨k, (Nat.pow_le_pow_iff_right Nat.one_lt_two).1 (h4 : 2 ^ 2 ≤ 2 ^ k), rfl⟩
  · rintro ⟨k, hk, rfl⟩
    exact ⟨⟨k, rfl⟩, (Nat.pow_le_pow_right (by decide) hk : 2 ^ 2 ≤ 2 ^ k)⟩

/-- R51's check of a parameter region, as the rule says it. -/
theorem RegionParam.wf_iff (p : RegionParam) : p.wf = true ↔
    p.lo ≤ p.hi ∧ p.hi ≤ 0x07FFFFFF ∧ (∃ k, 2 ≤ k ∧ p.size = 2 ^ k) ∧ 4 ∣ p.lo ∧ 4 ∣ p.hi + 1 ∧
      p.bytes.length = p.size := by
  rw [RegionParam.wf, Bool.and_eq_true, extraShapeWf_iff, beq_iff_eq, ← isPowerOfTwo_four_le_iff, Config.lastAddress,
    Nat.dvd_iff_mod_eq_zero, Nat.dvd_iff_mod_eq_zero]
  tauto

/-- The check of a whole construction: the image's, and every parameter region's. -/
theorem constructBus_check_iff (image : List Byte) (extra : List RegionParam) :
    (imageWf image && extra.all RegionParam.wf) = true ↔ (∃ k ≤ 24, image.length = 2 ^ k) ∧
      ∀ p ∈ extra, p.lo ≤ p.hi ∧ p.hi ≤ 0x07FFFFFF ∧ (∃ k, 2 ≤ k ∧ p.size = 2 ^ k) ∧ 4 ∣ p.lo ∧ 4 ∣ p.hi + 1 ∧
        p.bytes.length = p.size := by
  simp only [Bool.and_eq_true, imageWf_iff, List.all_eq_true, RegionParam.wf_iff]

/-- Settles O42: the construction tests exactly this check. -/
theorem busConstructedExactlyWhenR51Holds : Obligations.BusConstructedExactlyWhenR51Holds := by
  intro image extra
  rw [← constructBus_check_iff]
  refine ⟨fun hcheck => ⟨_, if_pos hcheck, ?_⟩, fun hcheck => if_neg hcheck⟩
  rw [Bus.layout, List.map_cons, List.map_map]
  rfl

end Sys2Proof.Machine

/-! SUPPORT. Proofs for spec/42_alu.md: the laws of the subtract flags (R130), MOV, MOVHI and MOVEA as whole meanings
(R125, R127, R128), and the constant that the last two build (R131). -/

namespace Sys2Proof.Machine

/-! ### Borrow and signed overflow (R130) -/

/-- The mask of R122's overflow term leaves bit 31. -/
theorem and_bit31_ne_zero_iff (v : Word) : v &&& 0x80000000#32 ≠ 0#32 ↔ v.getLsbD 31 = true := by
  rw [show 0x80000000#32 = BitVec.twoPow 32 31 from rfl, BitVec.and_twoPow]
  by_cases h : v.getLsbD 31 = true
  · rw [if_pos h]
    exact iff_of_true (by decide) h
  · rw [if_neg h]
    exact iff_of_false (fun hne => hne rfl) h

/-- OV, by the three bits 31 it depends on. -/
theorem sub32_ov_iff_bits (x y : Word) : (sub32 x y).ov = true ↔
    x.getLsbD 31 ≠ y.getLsbD 31 ∧ (sub32 x y).result.getLsbD 31 ≠ x.getLsbD 31 := by
  rw [sub32_ov_iff, and_bit31_ne_zero_iff, BitVec.getLsbD_and, BitVec.getLsbD_not, BitVec.getLsbD_xor,
    BitVec.getLsbD_xor]
  generalize x.getLsbD 31 = a
  generalize y.getLsbD 31 = b
  generalize (sub32 x y).result.getLsbD 31 = r
  revert a b r
  decide

/-- OV is the signed overflow of the difference. -/
theorem sub32_ov_eq_ssubOverflow (x y : Word) : (sub32 x y).ov = x.ssubOverflow y := by
  have hresult : (sub32 x y).result = x - y := rfl
  rw [Bool.eq_iff_iff, sub32_ov_iff_bits, BitVec.ssubOverflow_eq, hresult, BitVec.msb_eq_getLsbD_last,
    BitVec.msb_eq_getLsbD_last, BitVec.msb_eq_getLsbD_last]
  generalize x.getLsbD 31 = a
  generalize y.getLsbD 31 = b
  generalize (x - y).getLsbD 31 = r
  revert a b r
  decide

theorem ssubOverflow_iff (x y : Word) :
    x.ssubOverflow y = true ↔ x.toInt - y.toInt < -2 ^ 31 ∨ 2 ^ 31 ≤ x.toInt - y.toInt := by
  rw [BitVec.ssubOverflow, Bool.or_eq_true, decide_eq_true_iff, decide_eq_true_iff, or_comm]

/-- A borrow leaves a difference that is not 0. -/
theorem sub32_not_z_and_cy (x y : Word) : ¬((sub32 x y).z = true ∧ (sub32 x y).cy = true) := by
  rintro ⟨hz, hcy⟩
  rw [sub32_z_iff] at hz
  rw [sub32_cy_iff, sub_eq_zero.1 (hz : x - y = 0)] at hcy
  exact Nat.lt_irrefl _ hcy

/-- Settles O4, flag by flag. -/
theorem subFlagsAreBorrowAndSignedOverflow : Obligations.SubFlagsAreBorrowAndSignedOverflow := by
  intro x y
  refine ⟨sub32_cy_iff x y, ?_, sub32_ov_iff_bits x y, sub32_not_z_and_cy x y⟩
  rw [sub32_ov_eq_ssubOverflow, ssubOverflow_iff]

/-! ### The additions behind MOVHI and MOVEA -/

/-- imm16 in the high half, as a number (R124). -/
theorem highHalf_toNat (v : BitVec 16) : (highHalf v).toNat = v.toNat * 65536 := by
  have hlt := v.isLt
  rw [highHalf, BitVec.toNat_shiftLeft, BitVec.toNat_setWidth_of_le (by decide), Nat.shiftLeft_eq]
  omega

/-- MOVHI's sum, modulo 2^32. -/
theorem add32_highHalf_toNat (x : Word) (v : BitVec 16) :
    (add32 x (highHalf v)).toNat = (x.toNat + v.toNat * 65536) % 2 ^ 32 := by
  rw [add32, BitVec.toNat_add, highHalf_toNat]

/-- MOVEA's sum, modulo 2^32. -/
theorem add32_sext16_toNat (x : Word) (v : BitVec 16) :
    ((add32 x (sext16 v)).toNat : Int) = (x.toNat + v.toInt) % 2 ^ 32 := by
  calc ((add32 x (sext16 v)).toNat : Int)
      = (x.toNat + (sext16 v).toNat) % 2 ^ 32 := congrArg Nat.cast (BitVec.toNat_add x (sext16 v))
    _ = (x.toNat + v.toInt) % 2 ^ 32 := by rw [sext16_toNat, Int.add_emod_emod]

/-! ### The three meanings -/

/-- A register write leaves everything but the registers. -/
theorem writeReg_frame (s : State) (d : RegIdx) (v : Word) :
    (writeReg s d v).psw = s.psw ∧ (writeReg s d v).pc = s.pc ∧ (writeReg s d v).cycles = s.cycles ∧
      (writeReg s d v).fault = s.fault ∧ SameMemory s (writeReg s d v) ∧ (writeReg s d v).opcodeMap = s.opcodeMap :=
  ⟨writeReg_psw .., writeReg_pc .., writeReg_cycles .., writeReg_fault .., sameMemory_of_bus_eq (writeReg_bus ..),
    writeReg_opcodeMap ..⟩

/-- MOVHI completes with its sum written (R127). -/
theorem exec_movhi (imm16 : BitVec 16) (reg1 reg2 : RegIdx) (s : State) :
    exec (.movhi imm16 reg1 reg2) s = .next (writeReg s reg2 (add32 (readReg s reg1) (highHalf imm16))) := rfl

/-- MOVEA completes with its sum written (R128). -/
theorem exec_movea (imm16 : BitVec 16) (reg1 reg2 : RegIdx) (s : State) :
    exec (.movea imm16 reg1 reg2) s = .next (writeReg s reg2 (add32 (readReg s reg1) (sext16 imm16))) := rfl

/-- Settles O6: MOV's state, its value by the sign extension, its frame by the register write's. -/
theorem movWritesSignExtendedImmediate : Obligations.MovWritesSignExtendedImmediate :=
  fun s imm5 reg2 => ⟨_, _, exec_mov imm5 reg2 s, BitVec.toInt_signExtend_of_le (by decide), writeReg_writesReg s reg2 _,
    writeReg_frame s reg2 _⟩

/-- Settles O7: MOVHI's state, its value by the sum, its frame by the register write's. -/
theorem movhiAddsHighImmediate : Obligations.MovhiAddsHighImmediate :=
  fun s imm16 reg1 reg2 => ⟨_, _, exec_movhi imm16 reg1 reg2 s, add32_highHalf_toNat .., writeReg_writesReg s reg2 _,
    writeReg_frame s reg2 _⟩

/-- Settles O8: MOVEA's state, its value by the sum, its frame by the register write's. -/
theorem moveaAddsSignedImmediate : Obligations.MoveaAddsSignedImmediate :=
  fun s imm16 reg1 reg2 => ⟨_, _, exec_movea imm16 reg1 reg2 s, add32_sext16_toNat .., writeReg_writesReg s reg2 _,
    writeReg_frame s reg2 _⟩

/-! ### Building a constant (R131) -/

/-- A word of two halves, as a number. -/
theorem append_halves_toNat (H L : BitVec 16) : (H ++ L).toNat = H.toNat * 65536 + L.toNat := by
  rw [BitVec.toNat_append, ← Nat.shiftLeft_add_eq_or_of_lt L.isLt, Nat.shiftLeft_eq]

/-- The sign-extended low half, as a number. -/
theorem sext16_toNat_eq_ite (L : BitVec 16) :
    (sext16 L).toNat = if L.getLsbD 15 then L.toNat + 0xFFFF0000 else L.toNat := by
  have hlow : (L.setWidth 32).toNat = L.toNat := BitVec.toNat_setWidth_of_le (by decide)
  have hsign : L.msb = L.getLsbD 15 := BitVec.msb_eq_getLsbD_last L
  rw [sext16, BitVec.toNat_signExtend, hlow, hsign]
  cases L.getLsbD 15 with
  | false => rfl
  | true => rfl

/-- The high half added to the sign-extended low half: the two halves, the high one less 1 where the low one is
negative (R131, C2). -/
theorem add32_sext16_highHalf (H L : BitVec 16) :
    add32 (sext16 L) (highHalf H) = if L.getLsbD 15 then (H - 1#16) ++ L else H ++ L := by
  have hH := H.isLt
  have hL := L.isLt
  apply BitVec.eq_of_toNat_eq
  rw [add32_highHalf_toNat, sext16_toNat_eq_ite]
  cases L.getLsbD 15 with
  | false =>
    simp only [Bool.false_eq_true, if_false]
    rw [append_halves_toNat]
    omega
  | true =>
    simp only [if_true]
    rw [append_halves_toNat, BitVec.toNat_sub, show (1#16).toNat = 1 from rfl]
    omega

/-- A word is its two halves. -/
theorem append_extract_halves (K : Word) : K.extractLsb' 16 16 ++ K.extractLsb' 0 16 = K := by
  rw [BitVec.extractLsb'_append_extractLsb'_eq_extractLsb' (show 16 = 0 + 16 from rfl)]
  exact BitVec.extractLsb'_eq_self

/-- With the recipe's halves the pair gives the constant: the 1 that the sign extension takes is the 1 that the recipe
adds (R131). -/
theorem recipe_halves (K : Word) :
    (if (K.extractLsb' 0 16).getLsbD 15 then
      (K.extractLsb' 16 16 + (BitVec.ofBool (K.getLsbD 15)).setWidth 16 - 1#16) ++ K.extractLsb' 0 16
    else (K.extractLsb' 16 16 + (BitVec.ofBool (K.getLsbD 15)).setWidth 16) ++ K.extractLsb' 0 16) = K := by
  have hbit : (K.extractLsb' 0 16).getLsbD 15 = K.getLsbD 15 := by
    rw [BitVec.getLsbD_extractLsb', Nat.zero_add]
    rfl
  rw [hbit]
  cases K.getLsbD 15 with
  | false =>
    have hzero : (BitVec.ofBool false).setWidth 16 = 0#16 := rfl
    rw [if_neg Bool.false_ne_true, hzero, BitVec.add_zero, append_extract_halves]
  | true =>
    have hone : (BitVec.ofBool true).setWidth 16 = 1#16 := rfl
    rw [if_pos rfl, hone, BitVec.add_sub_cancel, append_extract_halves]

/-- Settles O10: MOVEA from register 0 leaves the sign-extended low half, to which MOVHI adds the high half. -/
theorem moveaThenMovhiBuildsConstant : Obligations.MoveaThenMovhiBuildsConstant := by
  intro s x L H hx
  have hlow : readReg (writeReg s x (add32 (readReg s 0#5) (sext16 L))) x = sext16 L := by
    rw [readReg_writeReg, if_neg hx, if_pos rfl, readReg_zero, add32, BitVec.zero_add]
  refine ⟨_, _, exec_movea L 0#5 x s, exec_movhi H x x _, ?_⟩
  rw [hlow, add32_sext16_highHalf]
  refine ⟨?value, ?others, ?psw, ?bus, ?constant⟩
  case value => rw [readReg_writeReg, if_neg hx, if_pos rfl]
  case others =>
    intro r hr
    by_cases h0 : r = 0#5
    · rw [h0, readReg_zero, readReg_zero]
    · rw [readReg_writeReg, if_neg h0, if_neg hr, readReg_writeReg, if_neg h0, if_neg hr]
  case psw => rw [writeReg_psw, writeReg_psw]
  case bus => rw [writeReg_bus, writeReg_bus]
  case constant =>
    rintro K rfl rfl
    rw [readReg_writeReg, if_neg hx, if_pos rfl, recipe_halves]

end Sys2Proof.Machine

/-! SUPPORT. Proofs for spec/41_control.md: JMP as a meaning and as a whole step (R115). -/

namespace Sys2Proof.Machine

/-- JMP completes with the PC at its target (R115). -/
theorem exec_jmp (reg1 : RegIdx) (s : State) : exec (.jmp reg1) s = .next (setPc s (readReg s reg1)) := rfl

/-- Settles O9: a change of the PC changes nothing else. -/
theorem jmpSetsPcOnly : Obligations.JmpSetsPcOnly :=
  fun s reg1 => ⟨_, exec_jmp reg1 s, rfl, readReg_setPc s _, rfl, rfl, rfl, sameMemory_of_bus_eq rfl, rfl⟩

/-- A step that fetches a JMP unit: the PC at the target, 3 cycles added (R88, R107, R115). -/
theorem step_of_jmp_unit {s : State} {u1 : Halfword} (hm : s.opcodeMap.WellFormed) (hclear : s.fault = none)
    (hread : readHalfword s.bus s.pc = .ok u1) (hjmp : opcodeField u1 = s.opcodeMap.jmp) :
    step s = .next (addCycles (setPc s (readReg s (reg1Field u1))) 3) := by
  have hfetch : fetchInstr s = .ok (.jmp (reg1Field u1), setPc s (s.pc + 2#32)) :=
    fetchInstr_of_one_unit (op := .jmp) hm hread hjmp.symm rfl
  have hretire : ∀ t : State, t.fault = none →
      retire (.jmp (reg1Field u1)) (.next t) = .next (addCycles t 3) := fun t ht => by
    rw [retire_next, if_pos ht]
    rfl
  rw [step_running hclear, hfetch]
  exact hretire (setPc s (readReg s (reg1Field u1))) hclear

/-- Clearing bit 0 and bits 31..27 of an address leaves the reduced address of its halfword. -/
theorem a27_halfwordAddr_mask (addr : Word) :
    a27 (halfwordAddr (addr &&& 0x07FFFFFE#32)) = a27 (halfwordAddr addr) := by
  have hmask : a27 0x07FFFFFE#32 &&& a27 0xFFFFFFFE#32 = a27 0xFFFFFFFE#32 := by decide
  simp only [halfwordAddr, a27_and, BitVec.and_assoc, hmask]

/-- A step at an unmapped PC latches an unmapped read. -/
theorem step_of_unmapped_pc {s : State} (hclear : s.fault = none)
    (h : resolve s.bus (a27 (halfwordAddr s.pc)) = none) :
    step s = .next (latch s (.bus .unmappedRead s.pc s.pc)) :=
  step_of_fetch_error hclear (fetchInstr_of_unmapped (readHalfword_unmapped h))

/-- Settles O17: the state a JMP step leaves, read field by field, and the fetch that follows it. -/
theorem jmpStepIsRuleR115 : Obligations.JmpStepIsRuleR115 := by
  refine ⟨rfl, fun s u1 hm hclear hread hjmp => ?_⟩
  refine ⟨_, step_of_jmp_unit hm hclear hread hjmp, rfl, fun _ => rfl, rfl, rfl, hclear, sameMemory_of_bus_eq rfl, rfl,
    ?next, ?unmapped⟩
  case next => exact readHalfword_toOption_congr _ (a27_halfwordAddr_mask _).symm
  case unmapped => exact fun h => ⟨_, _, _, step_of_unmapped_pc hclear h, rfl⟩

end Sys2Proof.Machine

/-! SUPPORT. Proofs for spec/43_store.md: the stores that succeed (R141, R142), the stores that fail (R143, R152), and
that a fetch reads what a store has written (R58, R67, R69). -/

namespace Sys2Proof.Machine

/-! ### Stores that succeed -/

/-- A new bus leaves everything else of the core. -/
theorem setBus_frame (s : State) (b : Bus) :
    SameRegs s (setBus s b) ∧ (setBus s b).psw = s.psw ∧ (setBus s b).pc = s.pc ∧ (setBus s b).cycles = s.cycles ∧
      (setBus s b).fault = s.fault :=
  ⟨readReg_setBus s b, rfl, rfl, rfl, rfl⟩

/-- Settles O11: ST.B ends with the bus that its byte write leaves. -/
theorem stbStoresLowByte : Obligations.StbStoresLowByte := by
  intro s reg1 reg2 d p hwf hp hc
  obtain ⟨b, hwrite, hsame, hother, hlayout⟩ := writeByte_readWrite hwf hp hc ((readReg s reg2).extractLsb' 0 8)
  obtain ⟨hregs, hpsw, hpc, hcycles, hfault⟩ := setBus_frame s b
  exact ⟨setBus s b, by rw [exec_stb, hwrite, endStore_ok], hsame, hother, hregs, hpsw, hpc, hcycles, hfault, hlayout, rfl⟩

/-- Settles O12: OUT.W ends with the bus that its word write leaves. -/
theorem outwStoresWordLittleEndian : Obligations.OutwStoresWordLittleEndian := by
  intro s reg1 reg2 d p hwf hp hc
  obtain ⟨b, hwrite, hbytes, hother, hlayout⟩ := writeWord_readWrite hwf hp hc (readReg s reg2)
  obtain ⟨hregs, hpsw, hpc, hcycles, hfault⟩ := setBus_frame s b
  refine ⟨setBus s b, by rw [exec_outw, hwrite, endStore_ok], fun k hk => (hbytes k hk).2, fun a ha => ?_, hregs, hpsw,
    hpc, hcycles, hfault, hlayout, rfl⟩
  refine hother a fun k hk => ?_
  rw [← (hbytes k hk).1]
  exact ha k hk

/-! ### Stores that fail -/

/-- A store that the bus refuses sets the latch and nothing else (R109). -/
theorem endStore_error (s : State) (e : BusError) :
    endStore s (.error e) = .next { s with fault := some (.bus e.kind e.addr (s.pc - 4#32)) } := rfl

/-- Settles O13: the two refusals of the write rule, for each store. -/
theorem failedStoreOnlySetsLatch : Obligations.FailedStoreOnlySetsLatch := by
  intro s reg1 reg2 d
  refine ⟨fun h => ?_, fun p hp hc => ?_, fun h => ?_, fun p hp hc => ?_⟩
  · rw [exec_stb, writeByte, writeThrough_unmapped _ h, endStore_error]
  · rw [exec_stb, writeByte, writeThrough_readOnly _ hp hc, endStore_error]
  · rw [exec_outw, writeWord, writeThrough_unmapped _ h, endStore_error]
  · rw [exec_outw, writeWord, writeThrough_readOnly _ hp hc, endStore_error]

/-- In the documented configuration the bus refuses every write: the ROM window is read-only, and nothing else is
mapped (R143). -/
theorem writeThrough_documented {bus : Bus} (h : bus.Documented) (addr target : Word) (f : Nat → Memory → Memory) :
    writeThrough bus addr target f =
      .error ⟨if 0x07000000 ≤ target.toNat % 2 ^ 27 then .readOnlyWrite else .unmappedWrite, addr⟩ := by
  obtain ⟨rom, hrom, hregions⟩ := h
  obtain ⟨regions⟩ := bus
  cases hregions
  obtain ⟨hlo, -, hcap, -⟩ := Region.romWf_iff.1 hrom
  rw [← a27_toNat]
  by_cases hwindow : 0x07000000 ≤ (a27 target).toNat
  · have hcovers : rom.covers (a27 target) = true := Region.romWf_covers hrom (hlo ▸ hwindow)
    rw [if_pos hwindow, writeThrough_readOnly f (resolve_head hcovers) hcap]
  · have hbelow : rom.covers (a27 target) = false := by
      rw [← Bool.not_eq_true, Region.covers_iff]
      exact fun hin => hwindow (hlo.symm.le.trans hin.1)
    have hnone : resolve ⟨[rom]⟩ (a27 target) = none := resolve_eq_none.2 (by simpa using hbelow)
    rw [if_neg hwindow, writeThrough_unmapped f hnone]

/-- Alignment to a word moves no address across the start of the ROM window. -/
theorem wordAddr_in_rom_window_iff (addr : Word) :
    0x07000000 ≤ (wordAddr addr).toNat % 2 ^ 27 ↔ 0x07000000 ≤ addr.toNat % 2 ^ 27 := by
  rw [wordAddr_toNat]
  omega

/-- Settles O14: the bus refuses both writes, the word's at the aligned address. -/
theorem storesFailInDocumentedConfiguration : Obligations.StoresFailInDocumentedConfiguration := by
  intro s reg1 reg2 d hdoc
  constructor
  · rw [exec_stb, writeByte, writeThrough_documented hdoc, endStore_error]
  · rw [exec_outw, writeWord, writeThrough_documented hdoc, endStore_error]
    simp only [wordAddr_in_rom_window_iff]

/-! ### A fetch reads what a store has written -/

/-- A store that leaves the latch clear succeeded. -/
theorem endStore_succeeded {s t : State} {r : Except BusError Bus} (h : endStore s r = .next t) (ht : t.fault = none) :
    ∃ b, r = .ok b ∧ t = setBus s b := by
  rcases endStore_cases s r with ⟨b, hb, hend⟩ | ⟨e, -, hend⟩
  · exact ⟨b, hb, Host.Outcome.next.inj (h.symm.trans hend)⟩
  · cases h.symm.trans hend
    cases ht

/-- Two neighbouring bytes of a word make its halfword. -/
theorem joinBytes_extract {n : Nat} (v : BitVec n) (k : Nat) :
    joinBytes (v.extractLsb' (k + 8) 8) (v.extractLsb' k 8) = v.extractLsb' k 16 :=
  BitVec.extractLsb'_append_extractLsb'_eq_extractLsb' rfl

/-- A word's address is the address of its first halfword. -/
theorem halfwordAddr_wordAddr (addr : Word) : halfwordAddr (wordAddr addr) = wordAddr addr := by
  apply BitVec.eq_of_toNat_eq
  rw [halfwordAddr_toNat, wordAddr_toNat]
  omega

/-- Where the four bytes of an aligned word read a word, its two halfwords read the word's halves, low half first. -/
theorem readHalfword_of_word {bus : Bus} {addr v : Word}
    (h : ∀ k < 4, readByte bus (wordAddr addr + BitVec.ofNat 32 k) = .ok (v.extractLsb' (8 * k) 8)) :
    readHalfword bus (wordAddr addr) = .ok (v.extractLsb' 0 16) ∧
      readHalfword bus (wordAddr addr + 2#32) = .ok (v.extractLsb' 16 16) := by
  have hfirst : halfwordAddr (wordAddr addr) = wordAddr addr + 0#32 := by
    rw [halfwordAddr_wordAddr, BitVec.add_zero]
  have hsecond : halfwordAddr (wordAddr addr + 2#32) = wordAddr addr + 2#32 := by
    rw [halfwordAddr_add_two, halfwordAddr_wordAddr]
  constructor
  · rw [readHalfword_of_bytes (hfirst ▸ h 0 (by decide))
      (by rw [hfirst, BitVec.add_assoc]; exact h 1 (by decide))]
    exact congrArg Except.ok (joinBytes_extract v 0)
  · rw [readHalfword_of_bytes (hsecond ▸ h 2 (by decide))
      (by rw [hsecond, BitVec.add_assoc]; exact h 3 (by decide))]
    exact congrArg Except.ok (joinBytes_extract v 16)

/-- An address is one of the two addresses of its halfword, as its bit 0 says. -/
theorem eq_halfwordAddr_of_bit0 (addr : Word) :
    addr = if addr.getLsbD 0 then halfwordAddr addr + 1#32 else halfwordAddr addr := by
  have hbit : addr.getLsbD 0 = decide (addr.toNat % 2 = 1) := Nat.testBit_zero addr.toNat
  have hlt := addr.isLt
  apply BitVec.eq_of_toNat_eq
  by_cases hodd : addr.toNat % 2 = 1
  · rw [hbit, decide_eq_true hodd, if_pos rfl, BitVec.toNat_add, halfwordAddr_toNat, BitVec.toNat_ofNat]
    omega
  · rw [hbit, decide_eq_false hodd, if_neg Bool.false_ne_true, halfwordAddr_toNat]
    omega

/-- In a well-formed table the two addresses of a halfword are mapped together (R54). -/
theorem halfword_unmapped {bus : Bus} (hwf : bus.wf = true) {addr : Word}
    (h : resolve bus (a27 (halfwordAddr addr)) = none) : resolve bus (a27 (halfwordAddr addr + 1#32)) = none := by
  rw [resolve_eq_none] at h ⊢
  intro r hr
  obtain ⟨j, hj⟩ := List.mem_iff_getElem?.1 hr
  obtain ⟨hlo, hhi, -⟩ := Bus.wf_region hwf hj
  have heven : (a27 (halfwordAddr addr)).toNat % 2 = 0 := by rw [a27_toNat, halfwordAddr_toNat]; omega
  have hfirst := h r hr
  rw [← Bool.not_eq_true, Region.covers_iff] at hfirst ⊢
  rw [a27_halfwordAddr_succ]
  omega

/-- Where a byte can be read, so can its halfword, and the byte is the half that bit 0 of the address says. -/
theorem readHalfword_of_readByte {bus : Bus} (hwf : bus.wf = true) {addr : Word} {v : Byte}
    (h : readByte bus addr = .ok v) :
    ∃ u, readHalfword bus addr = .ok u ∧ u.extractLsb' (if addr.getLsbD 0 then 8 else 0) 8 = v := by
  have haddr := eq_halfwordAddr_of_bit0 addr
  cases hp : resolve bus (a27 (halfwordAddr addr)) with
  | none =>
    have hnone : resolve bus (a27 addr) = none := by
      rw [haddr]
      split
      · exact halfword_unmapped hwf hp
      · exact hp
    rw [readByte_unmapped hnone] at h
    cases h
  | some p =>
    have hlow := readByte_resolved hp
    have hhigh := readByte_resolved (halfword_resolve hwf hp)
    refine ⟨_, readHalfword_of_bytes hlow hhigh, ?_⟩
    cases hbit : addr.getLsbD 0 with
    | false =>
      rw [hbit, if_neg Bool.false_ne_true] at haddr
      have hread : readByte bus (halfwordAddr addr) = .ok v := by rw [← haddr]; exact h
      exact (lowByte_joinBytes _ _).trans (Except.ok.inj (hlow.symm.trans hread))
    | true =>
      rw [hbit, if_pos rfl] at haddr
      have hread : readByte bus (halfwordAddr addr + 1#32) = .ok v := by rw [← haddr]; exact h
      exact (highByte_joinBytes _ _).trans (Except.ok.inj (hhigh.symm.trans hread))

/-- Settles O15: a store that left the latch clear succeeded, so the bytes it wrote read back, and a halfword is two
bytes. -/
theorem storedBytesAreFetched : Obligations.StoredBytesAreFetched := by
  intro s t reg1 reg2 d hwf _ ht
  constructor
  · intro h
    obtain ⟨b, hb, rfl⟩ := endStore_succeeded h ht
    obtain ⟨p, hp, hc, -⟩ := writeThrough_ok hb
    obtain ⟨b', hb', hbytes, -⟩ := writeWord_readWrite hwf hp hc (readReg s reg2)
    cases hb.symm.trans hb'
    exact readHalfword_of_word fun k hk => (hbytes k hk).2
  · intro h
    obtain ⟨b, hb, rfl⟩ := endStore_succeeded h ht
    obtain ⟨p, hp, hc, -⟩ := writeThrough_ok hb
    obtain ⟨b', hb', hsame, -⟩ := writeByte_readWrite hwf hp hc ((readReg s reg2).extractLsb' 0 8)
    cases hb.symm.trans hb'
    exact readHalfword_of_readByte (writeByte_wf hwf hb) (hsame _ rfl)

end Sys2Proof.Machine

/-! SUPPORT. Proofs for spec/10_state.md and spec/70_reset_and_hazards.md: the snapshot bit by bit (R33), the values
after construction (R37), and the invariant's first state. -/

namespace Sys2Proof.Machine

/-- Settles O29: a bit of the snapshot is what the table has at its position. -/
theorem snapshotIsTheLayoutOfR33 : Obligations.SnapshotIsTheLayoutOfR33 := by
  intro s k
  rw [statusSnapshot, snapshot]
  by_cases hk : k < 32
  · rw [getLsbD_packBits _ hk]
    interval_cases k <;> simp [snapshotTable]
  · obtain ⟨j, rfl⟩ := Nat.exists_eq_add_of_le' (Nat.le_of_not_lt hk)
    rw [BitVec.getLsbD_of_ge _ _ (Nat.le_add_left 32 j), if_neg (by omega)]
    rfl

/-- Every register of a constructed core reads 0. -/
theorem readReg_construct (m : OpcodeMap) (bus : Bus) (i : RegIdx) : readReg (State.construct m bus) i = 0#32 := by
  by_cases hi : i = 0#5
  · rw [hi, readReg_zero]
  · rw [readReg_stored _ hi]
    exact Vector.getElem_replicate _

/-- The backing bytes of a list, from offset 0 on. -/
theorem read_ofBytes_zero (bytes : List Byte) (k : Nat) (hk : k < bytes.length) :
    (Memory.ofBytes 0 bytes).read k = bytes[k] := by
  have hread := Memory.read_ofBytes bytes 0 k hk
  rwa [Nat.zero_add] at hread

/-- Settles O44: construction's fields by their definition, the regions' bytes by the lists they were built from. -/
theorem constructionValuesOfR37 : Obligations.ConstructionValuesOfR37 := by
  intro m image extra bus h
  obtain ⟨hregions, -⟩ := constructBus_ok h
  refine ⟨rfl, readReg_construct m bus, fun k hk => Vector.getElem_replicate hk, rfl, ?snapshot, rfl, rfl, rfl, rfl, ?rom,
    fun j p hp => ?extra⟩
  case snapshot =>
    have hreset : snapshot StatusWord.reset = 0x00008000#32 := by decide
    exact hreset
  case rom => exact ⟨romRegion image, by rw [hregions]; rfl, read_ofBytes_zero image⟩
  case extra =>
    refine ⟨p.toRegion, ?_, read_ofBytes_zero p.bytes⟩
    rw [hregions, List.getElem?_cons_succ, List.getElem?_map, hp]
    rfl

/-- Settles O45: a constructed bus is well-formed, and so are the model's reset bus and the default map. -/
theorem constructedStateHasTheInvariant : Obligations.ConstructedStateHasTheInvariant :=
  ⟨fun _ _ _ _ hm h => ⟨constructBus_wf h, hm⟩, ⟨by decide, defaultOpcodeMap_wellFormed⟩, rfl⟩

end Sys2Proof.Machine
